-- ==== Sys2Proof/Word.lean ====
section
/-! DEFINITION. The two word types of the engine (00_scope.md R8, R9): 64-bit register and bucket
words, and bytes. -/

namespace Sys2Proof

/-- A 64-bit register value or bucket word (`u64` of 00_scope.md R9; WORD_BITS of R8). -/
abbrev Word := BitVec 64

/-- One byte of a byte string (00_scope.md R11). -/
abbrev Byte := BitVec 8

end Sys2Proof
end

