-- ==== Sys2Proof/Config.lean ====
section
/-! DEFINITION. The implementation parameters of 00_scope.md R8 and the free values the spec leaves
open. What the spec calls OPEN has no body here, so no proof can see a value of it. -/

namespace Sys2Proof

/-- The widths P_ROUND_WIDTH may have, in bytes (00_scope.md R8, 92_eei_decisions.md D44). -/
inductive RoundWidth where
  | w1 | w2 | w4 | w8
  deriving DecidableEq, Repr, Inhabited

/-- The number of bytes of `big_endian_encode(round)`. -/
def RoundWidth.bytes : RoundWidth → Nat
  | .w1 => 1
  | .w2 => 2
  | .w4 => 4
  | .w8 => 8

/-- The parameters a part is built with (00_scope.md R8, D43 to D46).

M_MAX and BUF_BYTES are held as what they exceed their least legal value by, so that every value of
this type is a legal part and every legal part whose two sizes fit the 64-bit registers CAP and BUFSZ
(10_state.md R38) is a value of it. DEDUCED (A5): that they fit is read from the registers' width. -/
structure Params where
  /-- P_HASH: total, from byte strings of any length to 32 bytes (41_hash_expander.md R130). -/
  hash : List Byte → Vector Byte 32
  /-- P_ROUND_WIDTH (41_hash_expander.md R131). -/
  roundWidth : RoundWidth
  /-- The bucket words above the least legal 64; at most 2^58 - 65. -/
  extraWords : Fin 288230376151711680
  /-- The buffer bytes above the least legal size. -/
  extraBuf : Nat
  deriving Inhabited

/-- M_MAX: a multiple of 64, at least 4096 (00_scope.md R8). -/
def Params.mMax (p : Params) : Nat := 4096 + 64 * p.extraWords.val

/-- The least BUF_BYTES a part with this M_MAX may have: max(256, 56 + M_MAX/8) (00_scope.md R8). -/
def Params.bufLeast (p : Params) : Nat := max 256 (56 + p.mMax / 8)

/-- BUF_BYTES: at least `bufLeast`, and readable in the 64-bit register BUFSZ (00_scope.md R8). -/
def Params.bufBytes (p : Params) : Nat := min (p.bufLeast + p.extraBuf) (2 ^ 64 - 1)

/-- The number of words of the bucket store BV: M_MAX / 64 (10_state.md R39). -/
def Params.bucketWords (p : Params) : Nat := p.mMax / 64

/-- The parameters of THE machine: a free value, since the spec leaves each of them OPEN. -/
opaque Config.params : Params

/-- The byte that draw number `d` yields at BUF offset `i`, where the spec says "any value":
a byte nothing has written since reset (20_memory.md R60) and a host read while BUSY = 1 (R79). -/
opaque Config.freeByte : Nat → Nat → Byte

end Sys2Proof
end

