-- ==== Sys2Proof/Syntax.lean ====
section
/-! DEFINITION. The ten commands (30_encoding.md R92) and the command word's format CMD64 (R90). -/

namespace Sys2Proof

/-- The commands: one constructor per row of the opcode table. A command carries no operand field;
its operands are the latched operand registers (30_encoding.md R91). -/
inductive Instr where
  | construct
  | constructFixed
  | add
  | test
  | serialize
  | deserialize
  | loadFixed
  | setbit
  | testbit
  | discard
  deriving DecidableEq, Repr

/-- The two fields of a command word, format CMD64 (30_encoding.md R90). -/
structure CommandWord where
  /-- Bits 63:8. -/
  rsvd : BitVec 56
  /-- Bits 7:0. -/
  opc : BitVec 8
  deriving DecidableEq, Repr

end Sys2Proof
end

