-- ==== Sys2Proof/WellFormed.lean ====
section
/-! DEFINITION. When a command word is well formed (30_encoding.md R90, R92): reserved bits zero and an
assigned opcode. A command itself has no operand field, so every `Instr` is well formed. -/

namespace Sys2Proof

/-- The opcodes assigned by 30_encoding.md R92. -/
def assignedOpcodes : List (BitVec 8) :=
  [0x01, 0x02, 0x03, 0x04, 0x05, 0x06, 0x07, 0x08, 0x09, 0x0F]

/-- Bits 63:8 "must be 0" (30_encoding.md R90). -/
def CommandWord.reservedZero (c : CommandWord) : Bool := c.rsvd == 0

/-- The opcode is one of the table's (30_encoding.md R92). -/
def CommandWord.opcodeAssigned (c : CommandWord) : Bool := assignedOpcodes.contains c.opc

/-- Both checks of 30_encoding.md R93. -/
def CommandWord.wellFormed (c : CommandWord) : Bool := c.reservedZero && c.opcodeAssigned

end Sys2Proof
end

