-- ==== Sys2Proof/Decode.lean ====
section
/-! DEFINITION. Decoding a command word (30_encoding.md R93), total, rejecting by name; and the encoder,
written from the same table (R92). -/

namespace Sys2Proof

/-- Why a command word is illegal (30_encoding.md R93): both reasons raise IllegalCommand. -/
inductive Illegal where
  /-- R93 (1): some bit of 63:8 is set. -/
  | reservedBits
  /-- R93 (2): bits 7:0 are in {0x00, 0x0A to 0x0E, 0x10 to 0xFF}. -/
  | unassignedOpcode
  deriving DecidableEq, Repr

/-- The fields of a 64-bit command word (30_encoding.md R90). -/
def CommandWord.ofWord (w : Word) : CommandWord where
  rsvd := w.extractLsb' 8 56
  opc := w.extractLsb' 0 8

/-- The 64-bit value of a command word: RSVD in bits 63:8, OPC in bits 7:0. -/
def CommandWord.toWord (c : CommandWord) : Word := c.rsvd ++ c.opc

/-- The opcode map of 30_encoding.md R92, read from the opcode. -/
def decodeOpcode (opc : BitVec 8) : Except Illegal Instr :=
  match opc.toNat with
  | 0x01 => .ok .construct
  | 0x02 => .ok .constructFixed
  | 0x03 => .ok .add
  | 0x04 => .ok .test
  | 0x05 => .ok .serialize
  | 0x06 => .ok .deserialize
  | 0x07 => .ok .loadFixed
  | 0x08 => .ok .setbit
  | 0x09 => .ok .testbit
  | 0x0F => .ok .discard
  | _ => .error .unassignedOpcode

/-- Decoding in the order of 30_encoding.md R93: reserved bits first, then the opcode. -/
def decode (w : Word) : Except Illegal Instr :=
  let c := CommandWord.ofWord w
  if c.rsvd ≠ 0 then .error .reservedBits else decodeOpcode c.opc

/-- The opcode of each command (30_encoding.md R92). -/
def Instr.opcode : Instr → BitVec 8
  | .construct => 0x01
  | .constructFixed => 0x02
  | .add => 0x03
  | .test => 0x04
  | .serialize => 0x05
  | .deserialize => 0x06
  | .loadFixed => 0x07
  | .setbit => 0x08
  | .testbit => 0x09
  | .discard => 0x0F

/-- The command word of a command: its opcode, reserved bits 0 (30_encoding.md R90). -/
def Instr.commandWord (i : Instr) : CommandWord := ⟨0, i.opcode⟩

/-- A command is well formed when its command word is; every one is (`Laws.wellFormed_all`). -/
def Instr.wellFormed (i : Instr) : Bool := i.commandWord.wellFormed

/-- The encoder: the 64-bit value a host writes to CMD to issue the command (30_encoding.md R96). -/
def encode (i : Instr) : Word := i.commandWord.toWord

/-- The word the host's table row stands for, read by the decoder. A command word is ONE 64-bit value
(30_encoding.md R95) and a register has no byte order (20_memory.md R66 (d)), so the table's bit
numbers are the word's own. Bits above `nbits` are 0; a value of more than 64 bits is no command word. -/
def decodeTableWord (nbits w : Nat) : Option Instr :=
  let v := w % 2 ^ nbits
  if v < 2 ^ 64 then (decode (BitVec.ofNat 64 v)).toOption else none

end Sys2Proof
end

