-- ==== Sys2Proof/Machine/State.lean ====
section
/-! DEFINITION. The state of the engine as plain data (10_state.md R20 to R49), the events that reach it,
the reasons a host access can stop the model, and the state after reset (R48). -/

namespace Sys2Proof.Machine

/-- ctx.mode, the live filter variant (10_state.md R26, R39). -/
inductive Mode where
  /-- NONE: no filter. -/
  | none
  /-- GEN: the general filter. -/
  | gen
  /-- FIX: the fixed 2048-bit filter. -/
  | fix
  deriving DecidableEq, Repr

/-- The names of the error codes STATUS.ERR takes (60_exceptions.md R230). -/
inductive ErrorCode where
  | ok
  | invalidParameter
  | hashMismatch
  | truncatedData
  | sizeMismatch
  | illegalCommand
  | noFilter
  | wrongMode
  | bufferRange
  | capacityExceeded
  | zeroCapacity
  deriving DecidableEq, Repr

/-- The scalar fields of the filter context (10_state.md R39). -/
structure Ctx where
  mode : Mode
  m : Word
  k : Word
  n : Word
  deriving DecidableEq, Repr

/-- The five operand registers (10_state.md R31), and the copy of them a command latches (R32). -/
structure Operands where
  argM : Word
  argK : Word
  argPos : Word
  addr : Word
  len : Word
  deriving DecidableEq, Repr

/-- The hidden state of a command between issue and commit (10_state.md R45). Its staged writes exist
only inside the atomic engine step, as a `Completion`. `awb` and `doneIe` are STATUS.AWB and
IRQ_EN.DONE_IE as they stood at the issue, the values a host read returns until the commit (20_memory.md
R79; A16). -/
structure InFlight where
  word : Word
  ops : Operands
  awb : Bool
  doneIe : Bool
  deriving DecidableEq, Repr

/-- A host access (30_encoding.md R96). Addresses are those of 20_memory.md R61. -/
inductive Access where
  /-- `W64(addr, v)`. -/
  | w64 (addr : Nat) (v : Word)
  /-- `R64(addr)`. -/
  | r64 (addr : Nat)
  /-- `W8(addr, b)`. -/
  | w8 (addr : Nat) (b : Byte)
  /-- `R8(addr)`. -/
  | r8 (addr : Nat)
  /-- A read or write at `addr` of a width other than 8 and 64 bits: no such transaction exists. -/
  | otherWidth (addr : Nat)
  deriving DecidableEq, Repr

/-- What can happen next. The agenda holds the events in the order they happen (DESIGN CHOICE A1). -/
inductive Event where
  /-- The host makes one access. -/
  | access (a : Access)
  /-- The host statement `wait` (30_encoding.md R97). -/
  | wait
  /-- The engine takes its turn: it executes and commits the command in flight, if there is one. -/
  | engine
  /-- The reset input is asserted and released (70_reset_and_hazards.md R270; DESIGN CHOICE A17). -/
  | reset
  deriving DecidableEq, Repr

/-- A value a host read returned. -/
inductive Reading where
  | word (v : Word)
  | byte (b : Byte)
  deriving DecidableEq, Repr

/-- The state. BUSY, MODE, M, K, N, irq, round and rem are views (INVENTORY.md), ID, CAP and BUFSZ
constants, and CMD holds nothing. -/
structure State where
  /-- ARG_M, ARG_K, ARG_POS, ADDR, LEN (10_state.md R31). -/
  ops : Operands
  /-- IRQ_EN.DONE_IE (10_state.md R33). -/
  doneIe : Bool
  /-- STATUS.DONE (10_state.md R28). -/
  done : Bool
  /-- STATUS.RESULT (10_state.md R29). -/
  result : Bool
  /-- STATUS.AWB (10_state.md R30). -/
  awb : Bool
  /-- STATUS.ERR (10_state.md R30; 60_exceptions.md R230). -/
  err : ErrorCode
  /-- OUT_LEN (10_state.md R37). -/
  outLen : Word
  /-- ctx.mode, ctx.m, ctx.k, ctx.n (10_state.md R39). -/
  ctx : Ctx
  /-- BV (10_state.md R40): the words that are not 0, by rising index. -/
  bv : List (Nat × Word)
  /-- FA (10_state.md R41). -/
  fa : Vector Byte 256
  /-- BUF (20_memory.md R60): the bytes written since reset, by rising offset. -/
  buf : List Host.Cell
  /-- The command in flight (10_state.md R45); BUSY is whether there is one (R27). -/
  inFlight : Option InFlight
  /-- The model's own: the events to come, first one first (A1). -/
  agenda : List Event
  /-- The model's own: what the host's reads returned, newest first (A2). -/
  hostSaw : List Reading
  /-- The model's own: which free byte an "any value" read draws (A3). -/
  draws : Nat
  deriving DecidableEq, Repr

/-- A stop with no next state at a host access to an address the spec says does not exist. -/
inductive Fault where
  /-- Raised by a host access outside both windows (20_memory.md R61, I14: "the model refuses any
  access (no step)"). Safe: the model stops where a platform might answer somehow. -/
  | unmapped (addr : Nat)
  deriving DecidableEq, Repr

/-- A stop with no next state at a host access of a form the spec says the model refuses. -/
inductive Refusal where
  /-- Raised by `exec` alone, for an instruction that has no meaning yet (no arm does so). Safe. -/
  | notModelled (mnemonic : String)
  /-- Raised by an access to the register window that is not 64 bits wide or not at a multiple of 8
  (10_state.md R23, I13). Safe. -/
  | registerAccess (addr : Nat)
  /-- Raised by an access to BUF wider than one byte (20_memory.md R62, I15, open parameter
  P_HOST_WIDE_BUF). Safe. -/
  | wideBuffer (addr : Nat)
  deriving DecidableEq, Repr

/-- The machine right after reset: 10_state.md R48. BV and FA are unspecified and unobservable there,
zero here (DESIGN CHOICE A4); no BUF byte has a value yet; agenda, hostSaw and draws are the model's
own (DESIGN CHOICE A8, A2, A3). -/
def State.reset : State where
  ops := ⟨0, 0, 0, 0, 0⟩
  doneIe := false
  done := false
  result := false
  awb := false
  err := .ok
  outLen := 0
  ctx := ⟨.none, 0, 0, 0⟩
  bv := []
  fa := Vector.replicate 256 0
  buf := []
  inFlight := none
  agenda := []
  hostSaw := []
  draws := 0

end Sys2Proof.Machine
end

