-- ==== Sys2Proof/Machine/Ops.lean ====
section
/-! DEFINITION. The shared operations: sparse stores, the byte buffer BUF, the bucket store BV, byte
strings and their byte order, and the life of a command: issue, raise or succeed, commit, acknowledge
(60_exceptions.md R240 to R246). -/

namespace Sys2Proof.Machine

/-! ## Sparse stores: lists of key and value by rising key -/

/-- The value listed for a key. -/
def cellGet {α : Type} : List (Nat × α) → Nat → Option α
  | [], _ => none
  | (k, v) :: t, a => if k = a then some v else cellGet t a

/-- List a value for a key, in the key's place. -/
def cellPut {α : Type} : List (Nat × α) → Nat → α → List (Nat × α)
  | [], a, v => [(a, v)]
  | (k, w) :: t, a, v =>
    if a < k then (a, v) :: (k, w) :: t
    else if k = a then (a, v) :: t
    else (k, w) :: cellPut t a v

/-- Keep the cells whose key satisfies `keep`. -/
def cellKeep {α : Type} (keep : Nat → Bool) (m : List (Nat × α)) : List (Nat × α) :=
  m.filter fun c => keep c.1

/-- The keys rise strictly, so no key is listed twice. -/
abbrev cellsRise {α : Type} (m : List (Nat × α)) : Prop := m.Pairwise fun x y => x.1 < y.1

/-! ## BUF -/

/-- The byte buffer: the bytes written since reset (20_memory.md R60). -/
abbrev Memory := List Host.Cell

/-- What an unlisted offset reads as: no value of its own. A byte that nothing has written since reset
"holds an unspecified value: any value, drawn when it is read" (20_memory.md R60). -/
def Memory.unlisted : Option Byte := none

/-- The canonical form of BUF: offsets strictly rising. Since an unlisted byte has no value, no listed
byte can equal it. -/
abbrev Memory.wf (m : Memory) : Prop := cellsRise m

/-- The value BUF[i] holds, if something has written it since reset. -/
def Memory.read (m : Memory) (i : Nat) : Option Byte :=
  match cellGet m i with
  | some b => some b
  | none => Memory.unlisted

/-- BUF[i] <- b. -/
def Memory.write (m : Memory) (i : Nat) (b : Byte) : Memory := cellPut m i b

/-- MemWrite(a, |s|, s) (00_scope.md R13): BUF[a .. a + |s|) <- s. -/
def Memory.writeBytes (m : Memory) (a : Nat) : List Byte → Memory
  | [] => m
  | b :: s => Memory.writeBytes (Memory.write m a b) (a + 1) s

/-- The byte a read of BUF[i] gives at draw `d`: the byte written last, or any value. -/
def Memory.readAny (m : Memory) (d i : Nat) : Byte :=
  (Memory.read m i).getD (Config.freeByte d i)

/-- MemRead(a, n) (00_scope.md R13): the byte string BUF[a .. a + n). -/
def Memory.readBytes (m : Memory) (d a n : Nat) : List Byte :=
  (List.range n).map fun i => Memory.readAny m d (a + i)

/-! ## BV -/

/-- The bucket store: the words that are not 0 (10_state.md R40). -/
abbrev Buckets := List (Nat × Word)

/-- The canonical form of BV: indexes strictly rising, no word 0 listed. -/
abbrev Buckets.wf (b : Buckets) : Prop := cellsRise b ∧ ∀ c ∈ b, c.2 ≠ 0

/-- BV[w]. -/
def Buckets.read (b : Buckets) (w : Nat) : Word := (cellGet b w).getD 0

/-- BV[w] <- v. -/
def Buckets.write (b : Buckets) (w : Nat) (v : Word) : Buckets :=
  if v = 0 then cellKeep (fun k => k != w) b else cellPut b w v

/-- BV[w] <- 0 for every w < n; the words from n on are kept (C10). -/
def Buckets.clear (b : Buckets) (n : Nat) : Buckets := cellKeep (fun k => decide (n ≤ k)) b

/-- BV[w], BV[w + 1], … <- the words of a list. -/
def Buckets.load (b : Buckets) (w : Nat) : List Word → Buckets
  | [] => b
  | v :: vs => Buckets.load (Buckets.write b w v) (w + 1) vs

/-- The words BV[0 .. n). -/
def Buckets.words (b : Buckets) (n : Nat) : List Word := (List.range n).map (Buckets.read b)

/-! ## Byte strings (00_scope.md R11) -/

/-- The substring s[i .. i + n). -/
def slice (s : List Byte) (i n : Nat) : List Byte := (s.drop i).take n

/-- be_n(v): the n-byte big-endian encoding of v mod 2^(8n); byte 0 is the most significant. -/
def beBytes : Nat → Nat → List Byte
  | 0, _ => []
  | n + 1, v => BitVec.ofNat 8 (v / 256 ^ n) :: beBytes n v

/-- be_8 of a 64-bit value. -/
def be8 (v : Word) : List Byte := beBytes 8 v.toNat

/-- The integer a byte string encodes, most significant byte first. -/
def beNat : List Byte → Nat
  | [] => 0
  | b :: s => b.toNat * 256 ^ s.length + beNat s

/-- be64dec of an 8-byte string, as a 64-bit value. -/
def be64dec (s : List Byte) : Word := BitVec.ofNat 64 (beNat s)

/-! ## Issue, completion, commit, acknowledge -/

/-- What a command may write besides STATUS (60_exceptions.md R241). -/
structure Staged where
  ctx : Ctx
  bv : Buckets
  fa : Vector Byte 256
  buf : Memory
  outLen : Word
  deriving DecidableEq, Repr

/-- How a command ends (00_scope.md R14): its error code, its Boolean result, its staged writes. -/
structure Completion where
  code : ErrorCode
  result : Bool
  staged : Staged
  deriving DecidableEq, Repr

/-- Nothing staged yet: the values the state holds. -/
def State.staged (s : State) : Staged := ⟨s.ctx, s.bv, s.fa, s.buf, s.outLen⟩

/-- `raise E` (00_scope.md R14): ends with the code of E, nothing staged. -/
def raise (s : State) (e : ErrorCode) : Completion := ⟨e, false, s.staged⟩

/-- `ok` (00_scope.md R14): ends with code 0x00 and the staged writes. -/
def succeed (w : Staged) : Completion := ⟨.ok, false, w⟩

/-- `STATUS.RESULT <- r ; ok`: the end of TEST and TESTBIT, which stage no other write. -/
def answer (s : State) (r : Bool) : Completion := ⟨.ok, r, s.staged⟩

/-- Apply the staged writes. -/
def State.apply (s : State) (w : Staged) : State :=
  { s with ctx := w.ctx, bv := w.bv, fa := w.fa, buf := w.buf, outLen := w.outLen }

/-- The issue of a command (60_exceptions.md R240; 10_state.md R25, R27, R28, R32): BUSY <- 1, DONE <- 0,
the operands latched, AWB and DONE_IE kept for the reads of 20_memory.md R79. -/
def State.issue (s : State) (w : Word) : State :=
  { s with inFlight := some ⟨w, s.ops, s.awb, s.doneIe⟩, done := false }

/-- What a completion makes visible: its staged writes with code 0x00, else none, which leaves the values
the state holds (60_exceptions.md R241, R242). -/
def Completion.applied (c : Completion) (s : State) : Staged :=
  if c.code = .ok then c.staged else s.staged

/-- The commit (60_exceptions.md R241), the engine's one way to end a command and so to take an
exception: staged writes apply only with code 0x00; ERR, RESULT and DONE are written; BUSY <- 0.
irq follows DONE (`State.irq`). -/
def commit (c : Completion) (s : State) : State :=
  { s.apply (c.applied s) with
    err := c.code
    result := decide (c.code = .ok) && c.result
    inFlight := none
    done := true }

/-- The return from a completion (60_exceptions.md R246): the host clears DONE. -/
def State.acknowledge (s : State) : State := { s with done := false }

/-- An ignored host write while BUSY = 1 (10_state.md R30). -/
def State.lostWrite (s : State) : State := { s with awb := true }

/-- The effect of the reset input (70_reset_and_hazards.md R270): every register, context field and store
as after reset, a command in flight discarded without commit. What the host has seen, the events to
come and the draws are not the engine's, and go on (A10). Reset has no duration (A17). -/
def State.resetLine (s : State) : State :=
  { State.reset with agenda := s.agenda, hostSaw := s.hostSaw, draws := s.draws }

end Sys2Proof.Machine
end

