-- ==== Sys2Proof/Machine/Operands.lean ====
section
/-! DEFINITION. The operands of a command: the latched registers (10_state.md R32; 30_encoding.md R91, R99),
the region check (20_memory.md R63) and the byte string a region holds (R64). -/

namespace Sys2Proof.Machine

/-- The operands of the command being executed: the copy latched at its issue (10_state.md R32). With no
command in flight, issue and execution are one transition (60_exceptions.md R240, A9) and the operand
registers are read as they stand. -/
def State.operands (s : State) : Operands :=
  match s.inFlight with
  | some f => f.ops
  | none => s.ops

/-- The region check of 20_memory.md R63: a + n ≤ BUF_BYTES, exactly, with no wrap at 2^64. -/
abbrev inBuf (p : Params) (a n : Nat) : Prop := a + n ≤ p.bufBytes

/-- The byte string at the region (ADDR, n). -/
def State.memRead (s : State) (n : Nat) : List Byte :=
  Memory.readBytes s.buf s.draws s.operands.addr.toNat n

/-- The key operand of ADD and TEST: MemRead(ADDR, LEN) (20_memory.md R64). -/
def State.key (s : State) : List Byte := s.memRead s.operands.len.toNat

end Sys2Proof.Machine
end

