-- ==== Sys2Proof/Machine/BitArray.lean ====
section
/-! DEFINITION. The BitArray (40_bitarray.md): word count, modulo addressing, SETBIT and TESTBIT. -/

namespace Sys2Proof.Machine

/-- W(m) = ceil(m/64), the number of live words (40_bitarray.md R110). -/
def wordCount (m : Word) : Nat := (m.toNat + 63) / 64

/-- The bit index p = pos mod m (40_bitarray.md R111). -/
def bitIndex (m pos : Word) : Nat := pos.toNat % m.toNat

/-- The word with the one bit `b` of weight 2^b (40_bitarray.md R112). -/
def bitMask (b : Nat) : Word := 1#64 <<< b

/-- SetBit(pos) (40_bitarray.md R113). -/
def setBit (m : Word) (bv : Buckets) (pos : Word) : Buckets :=
  let p := bitIndex m pos
  Buckets.write bv (p / 64) (Buckets.read bv (p / 64) ||| bitMask (p % 64))

/-- TestBit(pos) (40_bitarray.md R114). -/
def testBit (m : Word) (bv : Buckets) (pos : Word) : Bool :=
  let p := bitIndex m pos
  ((Buckets.read bv (p / 64) >>> (p % 64)) &&& 1#64) == 1#64

/-- The checks SETBIT and TESTBIT share, in order (40_bitarray.md R116, R117; 60_exceptions.md R245). -/
def bitChecks (s : State) (act : Completion) : Completion :=
  if s.ctx.mode = .none then raise s .noFilter
  else if s.ctx.mode = .fix then raise s .wrongMode
  else if s.ctx.m = 0 then raise s .zeroCapacity
  else act

/-- SETBIT (40_bitarray.md R116). -/
def setbitOn (s : State) : Completion :=
  bitChecks s (succeed { s.staged with bv := setBit s.ctx.m s.bv s.operands.argPos })

/-- TESTBIT (40_bitarray.md R117). -/
def testbitOn (s : State) : Completion :=
  bitChecks s (answer s (testBit s.ctx.m s.bv s.operands.argPos))

/-- The meaning of SETBIT. -/
def execSetbit (s : State) : Host.Outcome State Fault Refusal := .next (commit (setbitOn s) s)

/-- The meaning of TESTBIT. -/
def execTestbit (s : State) : Host.Outcome State Fault Refusal := .next (commit (testbitOn s) s)

end Sys2Proof.Machine
end

