-- ==== Sys2Proof/Machine/HashExpander.lean ====
section
/-! DEFINITION. The HashExpander (41_hash_expander.md): the positions of a key in GEN mode, its byte and bit
pairs in FIX mode. The hash H is the parameter P_HASH (R130). -/

namespace Sys2Proof.Machine

/-- H(x), a 32-byte string (00_scope.md R13; 41_hash_expander.md R130). -/
def digest (p : Params) (x : List Byte) : List Byte := (p.hash x).toList

/-- The digest of round r: H(key ‖ be_RW(r)) (41_hash_expander.md R131). -/
def roundDigest (p : Params) (key : List Byte) (r : Nat) : List Byte :=
  digest p (key ++ beBytes p.roundWidth.bytes r)

/-- Chunk c of a digest: be64dec(d[8c .. 8c+8)) (41_hash_expander.md R132). -/
def chunk (d : List Byte) (c : Nat) : Word := be64dec (slice d (8 * c) 8)

/-- The first n chunks of a digest. -/
def chunks (d : List Byte) (n : Nat) : List Word := (List.range n).map (chunk d)

/-- round = k >> 2, the number of full rounds (41_hash_expander.md R134; 10_state.md R42). -/
def fullRounds (k : Word) : Nat := (k >>> 2).toNat

/-- rem = k & 3, the chunks of the partial round (41_hash_expander.md R134; 10_state.md R42). -/
def partialChunks (k : Word) : Nat := (k &&& 3#64).toNat

/-- GenPositions(key, k) (41_hash_expander.md R133). -/
def genPositions (p : Params) (key : List Byte) (k : Word) : List Word :=
  (List.range (fullRounds k)).flatMap (fun r => chunks (roundDigest p key r) 4) ++
    (if partialChunks k > 0 then chunks (roundDigest p key (fullRounds k)) (partialChunks k) else [])

/-- A byte and a bit of the fixed array (20_memory.md R75). -/
structure FixedPair where
  bytePos : Byte
  bitPos : BitVec 3
  deriving DecidableEq, Repr

/-- The pairs of a digest, two bytes each: (d[2j], d[2j+1] & 7) (41_hash_expander.md R138). -/
def digestPairs : List Byte → List FixedPair
  | b :: c :: d => ⟨b, (c &&& 7#8).truncate 3⟩ :: digestPairs d
  | _ => []

/-- FixedPairs(key, k): the first k of the 16 pairs of H(key) (41_hash_expander.md R137, R139). In FIX mode
k ≤ 16 (10_state.md R44). -/
def fixedPairs (p : Params) (key : List Byte) (k : Word) : List FixedPair :=
  (digestPairs (digest p key)).take k.toNat

end Sys2Proof.Machine
end

