-- ==== Sys2Proof/Machine/FixedFilter.lean ====
section
/-! DEFINITION. The FixedFilter (43_fixed_filter.md): CONSTRUCT_FIXED and the FIX arms of ADD and TEST. -/

namespace Sys2Proof.Machine

/-- FA[i]. -/
def faRead (fa : Vector Byte 256) (i : Byte) : Byte := fa[i.toNat]'i.isLt

/-- FA[i] <- b. -/
def faWrite (fa : Vector Byte 256) (i b : Byte) : Vector Byte 256 := fa.set i.toNat b i.isLt

/-- The empty fixed array. -/
def faZero : Vector Byte 256 := Vector.replicate 256 0

/-- FA[bytePos] <- FA[bytePos] | (1 << bitPos) (43_fixed_filter.md R182). -/
def setPair (fa : Vector Byte 256) (q : FixedPair) : Vector Byte 256 :=
  faWrite fa q.bytePos (faRead fa q.bytePos ||| (1#8 <<< q.bitPos.toNat))

/-- ((FA[bytePos] >> bitPos) & 1) == 1 (43_fixed_filter.md R183). -/
def testPair (fa : Vector Byte 256) (q : FixedPair) : Bool :=
  ((faRead fa q.bytePos >>> q.bitPos.toNat) &&& 1#8) == 1#8

/-- FixedAdd(key), on the array (43_fixed_filter.md R182). -/
def fixedAdd (p : Params) (s : State) (key : List Byte) : Vector Byte 256 :=
  (fixedPairs p key s.ctx.k).foldl setPair s.fa

/-- FixedTest(key) (43_fixed_filter.md R183). -/
def fixedTest (p : Params) (s : State) (key : List Byte) : Bool :=
  (fixedPairs p key s.ctx.k).all (testPair s.fa)

/-- The parameter checks of a fixed construction, in order: m must be 2048, k in [1, 16]
(43_fixed_filter.md R180; 44_codec.md R210). -/
def fixedChecks (s : State) (act : Completion) : Completion :=
  if s.operands.argM ≠ 2048 then raise s .invalidParameter
  else if s.operands.argK = 0 ∨ 16 < s.operands.argK.toNat then raise s .invalidParameter
  else act

/-- CONSTRUCT_FIXED (43_fixed_filter.md R180). -/
def constructFixedOn (s : State) : Completion :=
  fixedChecks s (succeed
    { s.staged with ctx := ⟨.fix, 2048, s.operands.argK, 0⟩, fa := faZero })

/-- The meaning of CONSTRUCT_FIXED. -/
def execConstructFixed (s : State) : Host.Outcome State Fault Refusal :=
  .next (commit (constructFixedOn s) s)

end Sys2Proof.Machine
end

