-- ==== Sys2Proof/Machine/FilterCore.lean ====
section
/-! DEFINITION. The FilterCore (42_filter_core.md): CONSTRUCT, ADD, TEST and DISCARD. -/

namespace Sys2Proof.Machine

/-- CONSTRUCT, its checks in the order of 42_filter_core.md R150 and R151. -/
def constructOn (p : Params) (s : State) : Completion :=
  if s.operands.argK = 0 ∨ 256 ≤ s.operands.argK.toNat then raise s .invalidParameter
  else if s.operands.argM = 0 then raise s .invalidParameter
  else if p.mMax < s.operands.argM.toNat then raise s .capacityExceeded
  else succeed
    { s.staged with
      ctx := ⟨.gen, s.operands.argM, s.operands.argK, 0⟩
      bv := Buckets.clear s.bv (wordCount s.operands.argM) }

/-- The checks ADD and TEST share, in the order of 42_filter_core.md R154: NoFilter, the empty key
(ends as `empty`), BufferRange, ZeroCapacity (GEN only); then the GEN or the FIX arm on the key. -/
def keyChecks (p : Params) (s : State) (empty gen fix : Completion) : Completion :=
  if s.ctx.mode = .none then raise s .noFilter
  else if s.operands.len = 0 then empty
  else if ¬ inBuf p s.operands.addr.toNat s.operands.len.toNat then raise s .bufferRange
  else if s.ctx.mode = .gen then
    if s.ctx.m = 0 then raise s .zeroCapacity else gen
  else fix

/-- The bucket store after Add of a key: SetBit at each of its positions (42_filter_core.md R152). -/
def genAdd (p : Params) (s : State) (key : List Byte) : Buckets :=
  (genPositions p key s.ctx.k).foldl (setBit s.ctx.m) s.bv

/-- Exist of a key: the conjunction over its positions (42_filter_core.md R153, R156). -/
def genTest (p : Params) (s : State) (key : List Byte) : Bool :=
  (genPositions p key s.ctx.k).all (testBit s.ctx.m s.bv)

/-- ADD (42_filter_core.md R152; FIX arm 43_fixed_filter.md R182). -/
def addOn (p : Params) (s : State) : Completion :=
  keyChecks p s (succeed s.staged)
    (succeed { s.staged with
      bv := genAdd p s s.key
      ctx := { s.ctx with n := s.ctx.n + 1 } })
    (succeed { s.staged with fa := fixedAdd p s s.key })

/-- TEST (42_filter_core.md R153; FIX arm 43_fixed_filter.md R183). -/
def testOn (p : Params) (s : State) : Completion :=
  keyChecks p s (answer s false) (answer s (genTest p s s.key)) (answer s (fixedTest p s s.key))

/-- DISCARD (42_filter_core.md R157): BV and FA keep their bits. -/
def discardOn (s : State) : Completion := succeed { s.staged with ctx := ⟨.none, 0, 0, 0⟩ }

/-- The meaning of CONSTRUCT. -/
def execConstruct (s : State) : Host.Outcome State Fault Refusal :=
  .next (commit (constructOn Config.params s) s)

/-- The meaning of ADD. -/
def execAdd (s : State) : Host.Outcome State Fault Refusal :=
  .next (commit (addOn Config.params s) s)

/-- The meaning of TEST. -/
def execTest (s : State) : Host.Outcome State Fault Refusal :=
  .next (commit (testOn Config.params s) s)

/-- The meaning of DISCARD. -/
def execDiscard (s : State) : Host.Outcome State Fault Refusal :=
  .next (commit (discardOn s) s)

end Sys2Proof.Machine
end

