-- ==== Sys2Proof/Machine/Codec.lean ====
section
/-! DEFINITION. The Codec (44_codec.md; wire formats 20_memory.md R70 to R75): SERIALIZE, DESERIALIZE and
LOAD_FIXED. -/

namespace Sys2Proof.Machine

/-! ## Images -/

/-- The part of a general image before its checksum: m, k, n, then the live words (20_memory.md R70). -/
def imagePrefix (c : Ctx) (bv : Buckets) : List Byte :=
  be8 c.m ++ be8 c.k ++ be8 c.n ++ (Buckets.words bv (wordCount c.m)).flatMap be8

/-- The general image: the prefix and its checksum H(prefix) (20_memory.md R70, R72). -/
def generalImage (p : Params) (c : Ctx) (bv : Buckets) : List Byte :=
  imagePrefix c bv ++ digest p (imagePrefix c bv)

/-- IMG_LEN(m) = 24 + 8·ceil(m/64) + 32 (20_memory.md R71). -/
def imageLength (m : Word) : Nat := 24 + 8 * wordCount m + 32

/-- The fixed image: byte i is FA[i], no header, no checksum (20_memory.md R74). -/
def fixedImage (fa : Vector Byte 256) : List Byte := fa.toList

/-- The image of the live filter and its length (44_codec.md R200, R201). -/
def liveImage (p : Params) (s : State) : List Byte :=
  if s.ctx.mode = .gen then generalImage p s.ctx s.bv else fixedImage s.fa

/-- The length L of the image of the live filter (44_codec.md R200). -/
def liveLength (s : State) : Nat :=
  if s.ctx.mode = .gen then imageLength s.ctx.m else 256

/-- The fields of an image's header (44_codec.md R203). -/
def imageM (b : List Byte) : Word := be64dec (slice b 0 8)
def imageK (b : List Byte) : Word := be64dec (slice b 8 8)
def imageN (b : List Byte) : Word := be64dec (slice b 16 8)

/-- Bucket word w of an image: be64dec(B[24+8w .. 32+8w)) (44_codec.md R203). -/
def imageWord (b : List Byte) (w : Nat) : Word := be64dec (slice b (24 + 8 * w) 8)

/-- The bucket words of an image. -/
def imageWords (b : List Byte) (n : Nat) : List Word := (List.range n).map (imageWord b)

/-! ## Commands -/

/-- SERIALIZE (44_codec.md R200 to R202). -/
def serializeOn (p : Params) (s : State) : Completion :=
  if s.ctx.mode = .none then raise s .noFilter
  else if ¬ inBuf p s.operands.addr.toNat (liveLength s) then raise s .bufferRange
  else succeed
    { s.staged with
      buf := Memory.writeBytes s.buf s.operands.addr.toNat (liveImage p s)
      outLen := BitVec.ofNat 64 (liveLength s) }

/-- The checks of DESERIALIZE on the image B of length L, after the region check, in the order of
44_codec.md R203 and R204; `none` if the image loads. -/
def imageError (p : Params) (b : List Byte) (l : Nat) : Option ErrorCode :=
  if l < 32 then some .truncatedData
  else if digest p (b.take (l - 32)) ≠ b.drop (l - 32) then some .hashMismatch
  else if l - 32 < 24 then some .truncatedData
  else if l - 32 - 24 < 8 * wordCount (imageM b) then some .truncatedData
  else if p.mMax < (imageM b).toNat then some .capacityExceeded
  else none

/-- What DESERIALIZE stages from an image that loads (44_codec.md R203). -/
def loadImage (s : State) (b : List Byte) : Staged :=
  { s.staged with
    ctx := ⟨.gen, imageM b, imageK b, imageN b⟩
    bv := Buckets.load s.bv 0 (imageWords b (wordCount (imageM b))) }

/-- The input image B = MemRead(ADDR, LEN) (44_codec.md R203). -/
def State.image (s : State) : List Byte := s.memRead s.operands.len.toNat

/-- DESERIALIZE (44_codec.md R203). -/
def deserializeOn (p : Params) (s : State) : Completion :=
  if ¬ inBuf p s.operands.addr.toNat s.operands.len.toNat then raise s .bufferRange
  else match imageError p s.image s.operands.len.toNat with
    | some e => raise s e
    | none => succeed (loadImage s s.image)

/-- The array whose byte i is byte i of a string, where the string has one. -/
def faOfBytes (b : List Byte) : Vector Byte 256 :=
  ⟨((List.range 256).map fun i => b.getD i 0).toArray, by simp⟩

/-- LOAD_FIXED (44_codec.md R210, R211). -/
def loadFixedOn (p : Params) (s : State) : Completion :=
  fixedChecks s (
    if s.operands.len ≠ 256 then raise s .sizeMismatch
    else if ¬ inBuf p s.operands.addr.toNat 256 then raise s .bufferRange
    else succeed
      { s.staged with
        ctx := ⟨.fix, 2048, s.operands.argK, 0⟩
        fa := faOfBytes (s.memRead 256) })

/-- The meaning of SERIALIZE. -/
def execSerialize (s : State) : Host.Outcome State Fault Refusal :=
  .next (commit (serializeOn Config.params s) s)

/-- The meaning of DESERIALIZE. -/
def execDeserialize (s : State) : Host.Outcome State Fault Refusal :=
  .next (commit (deserializeOn Config.params s) s)

/-- The meaning of LOAD_FIXED. -/
def execLoadFixed (s : State) : Host.Outcome State Fault Refusal :=
  .next (commit (loadFixedOn Config.params s) s)

end Sys2Proof.Machine
end

