-- ==== Sys2Proof/Machine/Dispatch.lean ====
section
/-! DEFINITION. The dispatch from each command to its meaning, one arm per constructor of Instr. -/

namespace Sys2Proof.Machine

-- The meaning of a command on the state in which the engine takes its turn.
def exec (i : Instr) (s : State) : Host.Outcome State Fault Refusal :=
  match i with
  | .construct => Sys2Proof.Machine.execConstruct s
  | .constructFixed => Sys2Proof.Machine.execConstructFixed s
  | .add => Sys2Proof.Machine.execAdd s
  | .test => Sys2Proof.Machine.execTest s
  | .serialize => Sys2Proof.Machine.execSerialize s
  | .deserialize => Sys2Proof.Machine.execDeserialize s
  | .loadFixed => Sys2Proof.Machine.execLoadFixed s
  | .setbit => Sys2Proof.Machine.execSetbit s
  | .testbit => Sys2Proof.Machine.execTestbit s
  | .discard => Sys2Proof.Machine.execDiscard s

end Sys2Proof.Machine
end

