-- ==== Sys2Proof/Machine/Flags.lean ====
section
/-! DEFINITION. STATUS, its fields and codes, IRQ_EN and the interrupt output (10_state.md R26 to R30, R33,
R49; 60_exceptions.md R230, R244). -/

namespace Sys2Proof.Machine

/-- The value of an error code in STATUS.ERR (60_exceptions.md R230). -/
def ErrorCode.code : ErrorCode → Byte
  | .ok => 0x00
  | .invalidParameter => 0x01
  | .hashMismatch => 0x02
  | .truncatedData => 0x03
  | .sizeMismatch => 0x04
  | .illegalCommand => 0x10
  | .noFilter => 0x11
  | .wrongMode => 0x12
  | .bufferRange => 0x13
  | .capacityExceeded => 0x14
  | .zeroCapacity => 0x15

/-- The value of STATUS.MODE (10_state.md R26). -/
def Mode.bits : Mode → BitVec 2
  | .none => 0
  | .gen => 1
  | .fix => 2

/-- STATUS.BUSY (10_state.md R27): a command is in flight (R45). -/
def State.busy (s : State) : Bool := s.inFlight.isSome

/-- AWB as a host read sees it: while BUSY = 1, as it was before the command in flight (20_memory.md R79);
what the host's own accesses make of it meanwhile (10_state.md R26, R30) shows from the commit on (A16). -/
def State.awbRead (s : State) : Bool :=
  match s.inFlight with
  | some f => f.awb
  | none => s.awb

/-- DONE_IE as a host read sees it: while BUSY = 1, as it was before the command in flight (20_memory.md
R79); a write of the host meanwhile (10_state.md R33) shows from the commit on (A16). -/
def State.doneIeRead (s : State) : Bool :=
  match s.inFlight with
  | some f => f.doneIe
  | none => s.doneIe

/-- STATUS as a host read sees it, bit 63 first (10_state.md R26; 20_memory.md R79). -/
def State.status (s : State) : Word :=
  0#48 ++ s.err.code ++ 0#2 ++ s.ctx.mode.bits ++
    BitVec.ofBool s.awbRead ++ BitVec.ofBool s.result ++ BitVec.ofBool s.done ++ BitVec.ofBool s.busy

/-- A host write to STATUS (10_state.md R26): bit 1 clears DONE, bit 3 clears AWB, nothing else. -/
def State.writeStatus (s : State) (v : Word) : State :=
  let s := if v.getLsbD 1 then s.acknowledge else s
  if v.getLsbD 3 then { s with awb := false } else s

/-- IRQ_EN as a host read sees it: bits 63:1 read 0 (10_state.md R33; 20_memory.md R79). -/
def State.irqEn (s : State) : Word := 0#63 ++ BitVec.ofBool s.doneIeRead

/-- A host write to IRQ_EN: bits 63:1 are ignored (10_state.md R33). -/
def State.writeIrqEn (s : State) (v : Word) : State := { s with doneIe := v.getLsbD 0 }

/-- The interrupt output, level-sensitive: irq = STATUS.DONE ∧ IRQ_EN.DONE_IE at all times, so of the DONE_IE
the host wrote last (60_exceptions.md R244). -/
def State.irq (s : State) : Bool := s.done && s.doneIe

end Sys2Proof.Machine
end

