-- ==== Sys2Proof/Machine/HostPort.lean ====
section
/-! DEFINITION. The host's two windows (20_memory.md R61, R62; 10_state.md R22 to R38): register reads and
writes, buffer reads and writes, and the accesses that have no step. -/

namespace Sys2Proof.Machine

/-- The registers of the map in 10_state.md R22. -/
inductive Reg where
  | id | cmd | status | irqEn | argM | argK | argPos | addr | len | outLen | m | k | n | cap | bufsz
  deriving DecidableEq, Repr

/-- The byte offset of a register from the window base (10_state.md R22). -/
def Reg.offset : Reg → Nat
  | .id => 0x000
  | .cmd => 0x008
  | .status => 0x010
  | .irqEn => 0x018
  | .argM => 0x020
  | .argK => 0x028
  | .argPos => 0x030
  | .addr => 0x038
  | .len => 0x040
  | .outLen => 0x048
  | .m => 0x050
  | .k => 0x058
  | .n => 0x060
  | .cap => 0x068
  | .bufsz => 0x070

/-- The register at an offset; none at a reserved one (10_state.md R22). -/
def Reg.ofOffset (off : Nat) : Option Reg :=
  match off with
  | 0x000 => some .id
  | 0x008 => some .cmd
  | 0x010 => some .status
  | 0x018 => some .irqEn
  | 0x020 => some .argM
  | 0x028 => some .argK
  | 0x030 => some .argPos
  | 0x038 => some .addr
  | 0x040 => some .len
  | 0x048 => some .outLen
  | 0x050 => some .m
  | 0x058 => some .k
  | 0x060 => some .n
  | 0x068 => some .cap
  | 0x070 => some .bufsz
  | _ => none

/-- The identification constant (10_state.md R24). -/
def idValue : Word := 0x424C4F4F4D000007#64

/-- What a host read of a register returns; no side effect (10_state.md R23 to R38). While BUSY = 1 it is the
value from before the command in flight, with BUSY = 1 and DONE = 0 (20_memory.md R79): the host cannot change
the other registers meanwhile, and `State.status` and `State.irqEn` read AWB and DONE_IE as kept at the issue. -/
def State.readReg (p : Params) (s : State) : Reg → Word
  | .id => idValue
  | .cmd => 0
  | .status => s.status
  | .irqEn => s.irqEn
  | .argM => s.ops.argM
  | .argK => s.ops.argK
  | .argPos => s.ops.argPos
  | .addr => s.ops.addr
  | .len => s.ops.len
  | .outLen => s.outLen
  | .m => s.ctx.m
  | .k => s.ctx.k
  | .n => s.ctx.n
  | .cap => BitVec.ofNat 64 p.mMax
  | .bufsz => BitVec.ofNat 64 p.bufBytes

/-- A read at an offset of the register window: a reserved offset reads 0 (10_state.md R23). -/
def State.readOffset (p : Params) (s : State) (off : Nat) : Word :=
  match Reg.ofOffset off with
  | some r => s.readReg p r
  | none => 0

/-- A host write the engine ignores while BUSY = 1, setting AWB (10_state.md R30). -/
def State.writeIdle (s : State) (t : State) : State := if s.busy then s.lostWrite else t

/-- A host write to a register (10_state.md R23, R25, R26, R30, R31, R33). -/
def State.writeReg (s : State) (r : Reg) (v : Word) : State :=
  match r with
  | .cmd => s.writeIdle (s.issue v)
  | .status => s.writeStatus v
  | .irqEn => s.writeIrqEn v
  | .argM => s.writeIdle { s with ops := { s.ops with argM := v } }
  | .argK => s.writeIdle { s with ops := { s.ops with argK := v } }
  | .argPos => s.writeIdle { s with ops := { s.ops with argPos := v } }
  | .addr => s.writeIdle { s with ops := { s.ops with addr := v } }
  | .len => s.writeIdle { s with ops := { s.ops with len := v } }
  | .id | .outLen | .m | .k | .n | .cap | .bufsz => s

/-- A write at an offset of the register window: a reserved offset ignores it (10_state.md R23). -/
def State.writeOffset (s : State) (off : Nat) (v : Word) : State :=
  match Reg.ofOffset off with
  | some r => s.writeReg r v
  | none => s

/-- A host write of BUF[i] (20_memory.md R62). -/
def State.writeByte (s : State) (i : Nat) (b : Byte) : State :=
  s.writeIdle { s with buf := Memory.write s.buf i b }

/-- What a host read of BUF[i] returns: the byte, or any value while BUSY = 1 (20_memory.md R60, R79). -/
def State.readByte (s : State) (i : Nat) : Byte :=
  if s.busy then Config.freeByte s.draws i else Memory.readAny s.buf s.draws i

/-- The host has read a value. -/
def State.saw (s : State) (r : Reading) : State := { s with hostSaw := r :: s.hostSaw }

/-- The window a host address lies in (20_memory.md R61). -/
inductive Window where
  | register (off : Nat)
  | buffer (i : Nat)
  | unmapped
  deriving DecidableEq, Repr

/-- The host address map (20_memory.md R61). -/
def window (p : Params) (a : Nat) : Window :=
  if a < 0x1000 then .register a
  else if 0x10000 ≤ a ∧ a < 0x10000 + p.bufBytes then .buffer (a - 0x10000)
  else .unmapped

/-- A 64-bit access: a register at a multiple of 8 (10_state.md R23); no other has a step. -/
def wordAccess (p : Params) (a : Nat) (act : Nat → State) : Host.Outcome State Fault Refusal :=
  match window p a with
  | .register off => if off % 8 = 0 then .next (act off) else .refused (.registerAccess a)
  | .buffer _ => .refused (.wideBuffer a)
  | .unmapped => .fault (.unmapped a)

/-- A one-byte access: a byte of BUF (20_memory.md R62); no other has a step. -/
def byteAccess (p : Params) (a : Nat) (act : Nat → State) : Host.Outcome State Fault Refusal :=
  match window p a with
  | .register _ => .refused (.registerAccess a)
  | .buffer i => .next (act i)
  | .unmapped => .fault (.unmapped a)

/-- One host access (30_encoding.md R96). An access of another width never has a step (10_state.md R23;
20_memory.md R62). -/
def hostAccess (p : Params) (s : State) : Access → Host.Outcome State Fault Refusal
  | .w64 a v => wordAccess p a fun off => s.writeOffset off v
  | .r64 a => wordAccess p a fun off => s.saw (.word (s.readOffset p off))
  | .w8 a b => byteAccess p a fun i => s.writeByte i b
  | .r8 a => byteAccess p a fun i => s.saw (.byte (s.readByte i))
  | .otherWidth a =>
    match window p a with
    | .register _ => .refused (.registerAccess a)
    | .buffer _ => .refused (.wideBuffer a)
    | .unmapped => .fault (.unmapped a)

end Sys2Proof.Machine
end

