-- ==== Sys2Proof/Machine/Turn.lean ====
section
/-! DEFINITION. Whose turn it is: one event of the agenda, or the engine on its own (DESIGN CHOICE A1). The
meaning of a command is an argument, so that a test can run another part. -/

namespace Sys2Proof.Machine

/-- Take the next event off the agenda; the event gets draws of its own (A3). -/
def State.advance (s : State) : State :=
  { s with agenda := s.agenda.tail, draws := s.draws + 1 }

/-- The engine's turn (60_exceptions.md R240): decode the command in flight, execute and commit it. An
illegal word completes with IllegalCommand (30_encoding.md R93; 60_exceptions.md R236). An idle engine
keeps all state (60_exceptions.md R254). -/
def engineTurn (run : Instr → State → Host.Outcome State Fault Refusal) (s : State) :
    Host.Outcome State Fault Refusal :=
  match s.inFlight with
  | none => .next s
  | some f =>
    match decode f.word with
    | .ok i => run i s
    | .error _ => .next (commit (raise s .illegalCommand) s)

/-- The statement `wait` (30_encoding.md R97): one poll of STATUS; if it read BUSY = 1, the engine gets
its turn and the poll is repeated (DESIGN CHOICE A11). -/
def State.poll (s : State) : State :=
  let t := s.saw (.word s.status)
  if s.status.getLsbD 0 then { t with agenda := .engine :: .wait :: t.agenda } else t

/-- One step: the first event of the agenda; with none left, a command in flight is executed and an idle
engine stays as it is (DESIGN CHOICE A1; DEDUCED A12). The reset input is one event with no duration: the
spec does not say what a host access does while reset stays asserted (70_reset_and_hazards.md R270, R273),
and here the next access acts as after reset (DESIGN CHOICE A17). -/
def stepOn (p : Params) (run : Instr → State → Host.Outcome State Fault Refusal) (s : State) :
    Host.Outcome State Fault Refusal :=
  match s.agenda with
  | [] => if s.busy then engineTurn run s.advance else .next s
  | .access a :: _ => hostAccess p s.advance a
  | .wait :: _ => .next s.advance.poll
  | .engine :: _ => engineTurn run s.advance
  | .reset :: _ => .next s.advance.resetLine

end Sys2Proof.Machine
end

