-- ==== Sys2Proof/Machine/Step.lean ====
section
/-! DEFINITION. One step of the machine, and where it takes its next command word from. -/

namespace Sys2Proof.Machine

/-- One step of the machine with the parameters of Config. -/
def step (s : State) : Host.Outcome State Fault Refusal := stepOn Config.params exec s

/-- The state in which the given command word has just been issued (60_exceptions.md R240) and it is the
engine's turn: the next step decodes, executes and commits it. The engine fetches nothing
(20_memory.md R82); the word in flight is where it finds its command (A8). -/
def State.withFetchWord (s : State) (nbits w : Nat) : State :=
  { s.issue (BitVec.ofNat 64 (w % 2 ^ nbits)) with agenda := .engine :: s.agenda }

end Sys2Proof.Machine
end

