-- ==== Sys2Proof/Machine/Script.lean ====
section
/-! DEFINITION. The command-script syntax (30_encoding.md R97, R98): what each statement and pseudo-command
puts on the agenda. -/

namespace Sys2Proof.Machine

/-- The script statements (30_encoding.md R97). -/
inductive Stmt where
  | wr (r : Reg) (v : Word)
  | rd (r : Reg)
  | wb (i : Nat) (bytes : List Byte)
  | rb (i n : Nat)
  | cmd (i : Instr)
  | wait
  deriving DecidableEq, Repr

/-- W8(0x1_0000 + i, b0), W8(0x1_0000 + i + 1, b1), …, in that order. -/
def writeEvents (i : Nat) : List Byte → List Event
  | [] => []
  | b :: s => .access (.w8 (0x10000 + i) b) :: writeEvents (i + 1) s

/-- The transactions of a statement (30_encoding.md R97). -/
def Stmt.events : Stmt → List Event
  | .wr r v => [.access (.w64 r.offset v)]
  | .rd r => [.access (.r64 r.offset)]
  | .wb i bytes => writeEvents i bytes
  | .rb i n => (List.range n).map fun j => .access (.r8 (0x10000 + i + j))
  | .cmd i => [.access (.w64 Reg.cmd.offset (encode i))]
  | .wait => [.wait]

/-- The pseudo-commands (30_encoding.md R98). -/
inductive Pseudo where
  | construct (m k : Word)
  | constructFixed (k : Word)
  | add (a l : Word)
  | test (a l : Word)
  | serialize (a : Word)
  | deserialize (a l : Word)
  | loadFixed (a k : Word)
  | setbit (p : Word)
  | testbit (p : Word)
  | discard
  | ack
  | clrawb
  deriving DecidableEq, Repr

/-- The expansion of a pseudo-command (30_encoding.md R98). -/
def Pseudo.expand : Pseudo → List Stmt
  | .construct m k => [.wr .argM m, .wr .argK k, .cmd .construct, .wait]
  | .constructFixed k => [.wr .argM 2048, .wr .argK k, .cmd .constructFixed, .wait]
  | .add a l => [.wr .addr a, .wr .len l, .cmd .add, .wait]
  | .test a l => [.wr .addr a, .wr .len l, .cmd .test, .wait]
  | .serialize a => [.wr .addr a, .cmd .serialize, .wait]
  | .deserialize a l => [.wr .addr a, .wr .len l, .cmd .deserialize, .wait]
  | .loadFixed a k =>
    [.wr .argM 2048, .wr .argK k, .wr .addr a, .wr .len 256, .cmd .loadFixed, .wait]
  | .setbit p => [.wr .argPos p, .cmd .setbit, .wait]
  | .testbit p => [.wr .argPos p, .cmd .testbit, .wait]
  | .discard => [.cmd .discard, .wait]
  | .ack => [.wr .status 0x2]
  | .clrawb => [.wr .status 0x8]

/-- A script after what is on the agenda already. -/
def State.withScript (s : State) (script : List Stmt) : State :=
  { s with agenda := s.agenda ++ script.flatMap Stmt.events }

end Sys2Proof.Machine
end

