-- ==== Sys2Proof/Safety.lean ====
section
/-! DEFINITION. The terms claims are stated in: how a command ends, single filter bits, whose turn it is, good
states, supported host accesses, runs that keep the live filter, and two states no host can tell apart. -/

namespace Sys2Proof.Machine

/-- The state after a command that wrote nothing but STATUS: ERR, RESULT, DONE <- 1, BUSY <- 0
(60_exceptions.md R241, R242). -/
def State.ended (s : State) (e : ErrorCode) (r : Bool) : State :=
  { s with err := e, result := r, done := true, inFlight := none }

/-- Filter bit p of a bucket store: bit (p mod 64) of word p div 64 (40_bitarray.md R112). -/
def bvBit (b : Buckets) (p : Nat) : Bool := (Buckets.read b (p / 64)).getLsbD (p % 64)

/-- Bit b of FA[i] (20_memory.md R75). -/
def faBit (fa : Vector Byte 256) (i : Byte) (b : Nat) : Bool := (faRead fa i).getLsbD b

/-- The next step is the engine's turn: its event comes first, or the agenda is empty. -/
def State.engineNext (s : State) : Prop := s.agenda = [] ∨ s.agenda.head? = some .engine

/-- The next step executes command i. -/
def State.runs (s : State) (i : Instr) : Prop :=
  s.engineNext ∧ ∃ f, s.inFlight = some f ∧ decode f.word = .ok i

/-- The commands that raise an error, in the table of 60_exceptions.md R230. -/
def ErrorCode.raisedBy : ErrorCode → List Instr
  | .ok => [.construct, .constructFixed, .add, .test, .serialize, .deserialize, .loadFixed, .setbit,
      .testbit, .discard]
  | .invalidParameter => [.construct, .constructFixed, .loadFixed]
  | .hashMismatch => [.deserialize]
  | .truncatedData => [.deserialize]
  | .sizeMismatch => [.loadFixed]
  | .illegalCommand => []
  | .noFilter => [.add, .test, .serialize, .setbit, .testbit]
  | .wrongMode => [.setbit, .testbit]
  | .bufferRange => [.add, .test, .serialize, .deserialize, .loadFixed]
  | .capacityExceeded => [.construct, .deserialize]
  | .zeroCapacity => [.add, .test, .setbit, .testbit]

/-- Two operand sets agree in the operands a command reads (30_encoding.md R99). -/
def readsSame (i : Instr) (a b : Operands) : Prop :=
  match i with
  | .construct | .constructFixed => a.argM = b.argM ∧ a.argK = b.argK
  | .add | .test | .deserialize => a.addr = b.addr ∧ a.len = b.len
  | .serialize => a.addr = b.addr
  | .loadFixed => a.argM = b.argM ∧ a.argK = b.argK ∧ a.addr = b.addr ∧ a.len = b.len
  | .setbit | .testbit => a.argPos = b.argPos
  | .discard => True

/-- The commands that replace the context when they succeed (10_state.md R43; 42_filter_core.md R163). -/
def replacesFilter (i : Instr) : Bool :=
  match i with
  | .construct | .constructFixed | .deserialize | .loadFixed | .discard => true
  | .add | .test | .serialize | .setbit | .testbit => false

/-- The step from s to t does not replace the context: it is no reset, and a replacing command that it
executes fails (42_filter_core.md R163; 60_exceptions.md R242). -/
def State.keepsFilter (s t : State) : Prop :=
  s.agenda.head? ≠ some .reset ∧ ∀ i, s.runs i → replacesFilter i = true → t.err ≠ .ok

/-- The next step is an ADD of a non-empty key that completes with code 0x00 (42_filter_core.md R155). -/
def State.counts (s t : State) : Prop := s.runs .add ∧ s.operands.len ≠ 0 ∧ t.err = .ok

/-- Runs that keep the live filter, failing replacing commands among their steps, with the number of
non-empty ADDs that completed with code 0x00. -/
inductive FilterRun : State → Nat → State → Prop where
  | start (s : State) : FilterRun s 0 s
  | other {s t u : State} {c : Nat} : FilterRun s c t → t.keepsFilter u → step t = .next u →
      ¬ t.counts u → FilterRun s c u
  | add {s t u : State} {c : Nat} : FilterRun s c t → t.keepsFilter u → step t = .next u →
      t.counts u → FilterRun s (c + 1) u

/-- The context is one the mode allows (10_state.md R39, R43, R44). In GEN mode only the capacity is
bounded, since DESERIALIZE range-checks neither m = 0 nor k (44_codec.md R208). -/
def Ctx.legal (p : Params) (c : Ctx) : Prop :=
  match c.mode with
  | .none => c.m = 0 ∧ c.k = 0 ∧ c.n = 0
  | .gen => c.m.toNat ≤ p.mMax
  | .fix => c.m = 2048 ∧ 1 ≤ c.k.toNat ∧ c.k.toNat ≤ 16 ∧ c.n = 0

/-- The invariant of the engine: a legal context; both stores in canonical form and inside their bounds
(10_state.md R40; 20_memory.md R60); while a command is in flight, DONE is 0 (10_state.md R28) and its
latched operands are the operand registers (R32); RESULT is 1 only after a success (R29). -/
structure State.Inv (s : State) : Prop where
  ctx_legal : s.ctx.legal Config.params
  bv_wf : Buckets.wf s.bv
  bv_bound : ∀ c ∈ s.bv, c.1 < Config.params.bucketWords
  buf_wf : Memory.wf s.buf
  buf_bound : ∀ c ∈ s.buf, c.1 < Config.params.bufBytes
  busy_not_done : s.busy = true → s.done = false
  latched : ∀ f, s.inFlight = some f → f.ops = s.ops
  result_ok : s.result = true → s.err = .ok

/-- The host address of an access. -/
def Access.addr : Access → Nat
  | .w64 a _ | .r64 a | .w8 a _ | .r8 a | .otherWidth a => a

/-- A host access of one of the forms that have a step (30_encoding.md R96). -/
def Access.supported (p : Params) : Access → Prop
  | .w64 a _ => a < 0x1000 ∧ a % 8 = 0
  | .r64 a => a < 0x1000 ∧ a % 8 = 0
  | .w8 a _ => 0x10000 ≤ a ∧ a < 0x10000 + p.bufBytes
  | .r8 a => 0x10000 ≤ a ∧ a < 0x10000 + p.bufBytes
  | .otherWidth _ => False

/-- A bucket word that the live filter uses: GEN mode, index below W(ctx.m) (10_state.md R40). -/
def State.liveWord (s : State) (w : Nat) : Prop := s.ctx.mode = .gen ∧ w < wordCount s.ctx.m

/-- The two states agree in everything but the dead stores: bucket words the live filter does not use,
and FA outside FIX mode (10_state.md R40, R41, R48). -/
structure State.LiveEq (s t : State) : Prop where
  rest : { t with bv := s.bv, fa := s.fa } = s
  words : ∀ w, s.liveWord w → Buckets.read s.bv w = Buckets.read t.bv w
  array : s.ctx.mode = .fix → s.fa = t.fa

end Sys2Proof.Machine
end

