-- ==== Sys2Proof/Certificates/Slice0/Obligations.lean ====
section
/-! DEFINITION. The statements for the provers. Each docstring names the rule of spec/ it formalises, and the
log entry (A<n>) of the model's own choice it rests on, if any. Statements about `step` all rest on the model's
agenda (A1) and its draw counter (A3): the event a step consumes leaves `agenda`, and `draws` grows by 1. -/

open Sys2Proof Sys2Proof.Machine

/-! ## Encoding -/

/-- 30_encoding.md R92: the word of each row of the opcode map, written out. -/
def Obligations.TableWordsDecode : Prop :=
  decode 0x0000000000000001#64 = .ok .construct ∧
  decode 0x0000000000000002#64 = .ok .constructFixed ∧
  decode 0x0000000000000003#64 = .ok .add ∧
  decode 0x0000000000000004#64 = .ok .test ∧
  decode 0x0000000000000005#64 = .ok .serialize ∧
  decode 0x0000000000000006#64 = .ok .deserialize ∧
  decode 0x0000000000000007#64 = .ok .loadFixed ∧
  decode 0x0000000000000008#64 = .ok .setbit ∧
  decode 0x0000000000000009#64 = .ok .testbit ∧
  decode 0x000000000000000F#64 = .ok .discard

/-- A word decodes to a command exactly when it is that command's encoding, so no bit is dropped and no two
words share a command (30_encoding.md R90, R92, R93, R95). -/
def Obligations.DecodesExactlyItsEncoding : Prop :=
  ∀ (w : Word) (i : Instr), decode w = .ok i ↔ w = encode i

/-- 30_encoding.md R93: reserved bits, then the opcode; an illegal word changes nothing but STATUS. -/
def Obligations.IllegalWordsCompleteWithIllegalCommand : Prop :=
  ∀ (s : State) (f : InFlight), s.engineNext → s.inFlight = some f →
    (f.word.extractLsb' 8 56 ≠ 0 → step s = .next (s.advance.ended .illegalCommand false)) ∧
    (f.word.extractLsb' 8 56 = 0 → f.word.extractLsb' 0 8 ∉ assignedOpcodes →
      step s = .next (s.advance.ended .illegalCommand false)) ∧
    (f.word.extractLsb' 8 56 = 0 → f.word.extractLsb' 0 8 ∈ assignedOpcodes →
      ∃ i, i.opcode = f.word.extractLsb' 0 8 ∧ step s = exec i s.advance)

/-! ## The life of a command -/

/-- The step in which it is the engine's turn is `exec` of the command in flight, after the model's own
bookkeeping: the event leaves the agenda and one draw is used (60_exceptions.md R240; A1, A3). -/
def Obligations.StepRunsTheDecodedCommand : Prop :=
  ∀ (s : State) (i : Instr), s.runs i →
    step s = exec i { s with agenda := s.agenda.tail, draws := s.draws + 1 }

/-- The fixed fetch function: from any state, the very next step runs the command a table word stands for
(A8; 60_exceptions.md R240). -/
def Obligations.FetchedWordRunsNext : Prop :=
  ∀ (s : State) (w : Nat) (i : Instr), decodeTableWord 64 w = some i →
    step (s.withFetchWord 64 w) =
      exec i { s with
        inFlight := some ⟨encode i, s.ops, s.awb, s.doneIe⟩, done := false, draws := s.draws + 1 }

/-- 10_state.md R25: a write to CMD issues one command while BUSY = 0 and none while BUSY = 1; CMD reads
0. -/
def Obligations.WriteToCmdIssues : Prop :=
  ∀ (s : State) (rest : List Event),
    (∀ v, s.agenda = .access (.w64 0x008 v) :: rest → s.busy = false →
      step s = .next { s with
        agenda := rest, draws := s.draws + 1
        inFlight := some ⟨v, s.ops, s.awb, s.doneIe⟩, done := false }) ∧
    (∀ v, s.agenda = .access (.w64 0x008 v) :: rest → s.busy = true →
      step s = .next { s with agenda := rest, draws := s.draws + 1, awb := true }) ∧
    (s.agenda = .access (.r64 0x008) :: rest →
      step s = .next { s with
        agenda := rest, draws := s.draws + 1, hostSaw := .word 0 :: s.hostSaw })

/-- Issue and then execute-and-commit, as two steps, end in the state that one transition on the idle
machine gives (10_state.md R45; 60_exceptions.md R240). -/
def Obligations.SplitStepsAgreeWithOneTransition : Prop :=
  ∀ (s : State) (i : Instr) (rest : List Event),
    s.agenda = .access (.w64 0x008 (encode i)) :: .engine :: rest → s.busy = false →
    ∃ t, step s = .next t ∧ t.busy = true ∧ t.done = false ∧
      step t = exec i { s with agenda := rest, draws := s.draws + 2 }

/-- The host statement `wait` (30_encoding.md R97). On an idle engine: one poll, which reads BUSY = 0. With a
word in flight, legal or not: a poll that reads BUSY = 1, the engine's turn, which commits (30_encoding.md R93;
60_exceptions.md R240), and a poll that reads BUSY = 0 and the values the commit left (A11). -/
def Obligations.WaitEndsAfterTheCommit : Prop :=
  ∀ (s : State) (rest : List Event), s.agenda = .wait :: rest →
    (s.inFlight = none → s.status.getLsbD 0 = false ∧
      step s = .next { s with
        agenda := rest, draws := s.draws + 1, hostSaw := .word s.status :: s.hostSaw }) ∧
    ∀ (f : InFlight) (v : State), s.inFlight = some f →
      v = { s with
        agenda := .wait :: rest, draws := s.draws + 2, hostSaw := .word s.status :: s.hostSaw } →
      ∃ t u, step s = .next t ∧ s.status.getLsbD 0 = true ∧ step t = .next u ∧
        (∀ i, decode f.word = .ok i → exec i v = .next u) ∧
        (∀ r, decode f.word = .error r → u = v.ended .illegalCommand false) ∧
        u.status.getLsbD 0 = false ∧
        step u = .next { u with
          agenda := rest, draws := u.draws + 1, hostSaw := .word u.status :: u.hostSaw }

/-- Every command completes: BUSY <- 0, DONE <- 1; no command writes an operand register, IRQ_EN or AWB,
and RESULT is 1 only after TEST or TESTBIT with code 0x00 (60_exceptions.md R240, R241; 10_state.md R28,
R29, R30, R31). -/
def Obligations.EveryCommandCompletes : Prop :=
  ∀ (i : Instr) (s : State), ∃ t, exec i s = .next t ∧
    t.busy = false ∧ t.done = true ∧ t.irq = s.doneIe ∧
    t.ops = s.ops ∧ t.doneIe = s.doneIe ∧ t.awb = s.awb ∧
    t.agenda = s.agenda ∧ t.hostSaw = s.hostSaw ∧ t.draws = s.draws ∧
    (t.result = true → t.err = .ok ∧ (i = .test ∨ i = .testbit)) ∧
    (t.outLen ≠ s.outLen → i = .serialize) ∧
    (t.buf ≠ s.buf → i = .serialize) ∧
    (t.bv ≠ s.bv → i ∈ [.construct, .add, .deserialize, .setbit]) ∧
    (t.fa ≠ s.fa → i ∈ [.constructFixed, .add, .loadFixed]) ∧
    (t.ctx ≠ s.ctx → i = .add ∨ replacesFilter i = true)

/-- 60_exceptions.md R242: a command that raises any error changes STATUS alone. -/
def Obligations.FailingCommandsChangeOnlyStatus : Prop :=
  ∀ (i : Instr) (s t : State), exec i s = .next t → t.err ≠ .ok → t = s.ended t.err false

/-- 60_exceptions.md R230: the codes of STATUS.ERR, and which command raises which. -/
def Obligations.ErrorCodesAndWhoRaisesThem : Prop :=
  ErrorCode.code .ok = 0x00 ∧ ErrorCode.code .invalidParameter = 0x01 ∧
  ErrorCode.code .hashMismatch = 0x02 ∧ ErrorCode.code .truncatedData = 0x03 ∧
  ErrorCode.code .sizeMismatch = 0x04 ∧ ErrorCode.code .illegalCommand = 0x10 ∧
  ErrorCode.code .noFilter = 0x11 ∧ ErrorCode.code .wrongMode = 0x12 ∧
  ErrorCode.code .bufferRange = 0x13 ∧ ErrorCode.code .capacityExceeded = 0x14 ∧
  ErrorCode.code .zeroCapacity = 0x15 ∧
  (∀ (s t : State) (i : Instr), exec i s = .next t → i ∈ t.err.raisedBy) ∧
  (∀ (s : State) (f : InFlight) (r : Illegal), s.engineNext → s.inFlight = some f →
    decode f.word = .error r →
    ∃ t, step s = .next t ∧ t.err = .illegalCommand)

/-- A command reads only the operand registers its row of 30_encoding.md R99 marks. -/
def Obligations.OnlyMarkedOperandsAreRead : Prop :=
  ∀ (i : Instr) (s : State) (f g : InFlight), readsSame i f.ops g.ops →
    exec i { s with inFlight := some f } = exec i { s with inFlight := some g }

/-- 10_state.md R32: a command in flight uses the operands latched at its issue; what the operand registers
hold meanwhile changes nothing but themselves. -/
def Obligations.LatchedOperandsAreUsed : Prop :=
  ∀ (i : Instr) (s t : State) (f : InFlight) (o : Operands), s.inFlight = some f →
    exec i s = .next t → exec i { s with ops := o } = .next { t with ops := o }

/-! ## Construction and discard -/

/-- 42_filter_core.md R150, R151: CONSTRUCT, its errors in order and its effect. -/
def Obligations.ConstructFollowsItsRule : Prop :=
  decode 0x0000000000000001#64 = .ok .construct ∧
  ∀ s : State,
    (s.operands.argK = 0 ∨ 256 ≤ s.operands.argK.toNat →
      exec .construct s = .next (s.ended .invalidParameter false)) ∧
    (s.operands.argK ≠ 0 → s.operands.argK.toNat < 256 → s.operands.argM = 0 →
      exec .construct s = .next (s.ended .invalidParameter false)) ∧
    (s.operands.argK ≠ 0 → s.operands.argK.toNat < 256 →
      Config.params.mMax < s.operands.argM.toNat →
      exec .construct s = .next (s.ended .capacityExceeded false)) ∧
    (s.operands.argK ≠ 0 → s.operands.argK.toNat < 256 → s.operands.argM ≠ 0 →
      s.operands.argM.toNat ≤ Config.params.mMax →
      ∃ bv', exec .construct s =
          .next ({ s with ctx := ⟨.gen, s.operands.argM, s.operands.argK, 0⟩, bv := bv' }.ended
            .ok false) ∧
        ∀ w, Buckets.read bv' w =
          if w < (s.operands.argM.toNat + 63) / 64 then 0 else Buckets.read s.bv w)

/-- 43_fixed_filter.md R180: CONSTRUCT_FIXED. -/
def Obligations.ConstructFixedFollowsItsRule : Prop :=
  decode 0x0000000000000002#64 = .ok .constructFixed ∧
  ∀ s : State,
    (s.operands.argM ≠ 2048 ∨ s.operands.argK = 0 ∨ 16 < s.operands.argK.toNat →
      exec .constructFixed s = .next (s.ended .invalidParameter false)) ∧
    (s.operands.argM = 2048 → s.operands.argK ≠ 0 → s.operands.argK.toNat ≤ 16 →
      ∃ fa', exec .constructFixed s =
          .next ({ s with ctx := ⟨.fix, 2048, s.operands.argK, 0⟩, fa := fa' }.ended .ok false) ∧
        ∀ i, faRead fa' i = 0)

/-- 42_filter_core.md R157: DISCARD, in every mode; BV and FA keep their bits. -/
def Obligations.DiscardFollowsItsRule : Prop :=
  decode 0x000000000000000F#64 = .ok .discard ∧
  ∀ s : State, exec .discard s = .next ({ s with ctx := ⟨.none, 0, 0, 0⟩ }.ended .ok false) ∧
    ∀ t, exec .discard s = .next t → ∀ i, i ∈ [Instr.add, .test, .serialize, .setbit, .testbit] →
      exec i t = .next (t.ended .noFilter false)

/-! ## Keys and positions -/

/-- 20_memory.md R64: the key is the byte string BUF[ADDR .. ADDR + LEN); a byte that nothing has written
is any value (R60), here the free value of the step's draw. -/
def Obligations.KeyIsTheBufRegion : Prop :=
  ∀ s : State, s.key.length = s.operands.len.toNat ∧
    ∀ i, i < s.operands.len.toNat →
      (∀ b, Memory.read s.buf (s.operands.addr.toNat + i) = some b → s.key[i]? = some b) ∧
      (Memory.read s.buf (s.operands.addr.toNat + i) = none →
        s.key[i]? = some (Config.freeByte s.draws (s.operands.addr.toNat + i)))

/-- 41_hash_expander.md R131 to R133: k candidates; candidate j is chunk j mod 4 of the digest of round j div
4, whatever the hash and the round width are. That chunk c is the big-endian field at offset 8c is the spec's
own decision D12 (R132). -/
def Obligations.GenPositionsAreTheRoundsChunks : Prop :=
  ∀ (p : Params) (key : List Byte) (k : Word), (genPositions p key k).length = k.toNat ∧
    ∀ j, j < k.toNat → (genPositions p key k)[j]? =
      some (be64dec (slice (p.hash (key ++ beBytes p.roundWidth.bytes (j / 4))).toList
        (8 * (j % 4)) 8))

/-- 41_hash_expander.md R138, R139: pair j is (d[2j], d[2j+1] & 7), d = H(key), for j < k ≤ 16. -/
def Obligations.FixedPairsAreTheDigestsBytePairs : Prop :=
  ∀ (p : Params) (key : List Byte) (k : Word), k.toNat ≤ 16 →
    (fixedPairs p key k).length = k.toNat ∧
    ∀ j, j < k.toNat → ∃ q, (fixedPairs p key k)[j]? = some q ∧
      (p.hash key).toList[2 * j]? = some q.bytePos ∧
      ∃ c, (p.hash key).toList[2 * j + 1]? = some c ∧ q.bitPos.toNat = c.toNat % 8

/-- be_8 and be64dec (00_scope.md R11): byte 0 is the most significant, and decoding inverts encoding. -/
def Obligations.BigEndianFieldsRoundTrip : Prop :=
  (∀ (v : Word) (i : Nat), i < 8 → (be8 v)[i]? = some (v.extractLsb' (8 * (7 - i)) 8)) ∧
  (∀ v : Word, be64dec (be8 v) = v) ∧
  (∀ s : List Byte, s.length = 8 → be8 (be64dec s) = s)

/-! ## ADD and TEST -/

/-- 42_filter_core.md R152 and 43_fixed_filter.md R182: ADD in both modes. -/
def Obligations.AddFollowsItsRule : Prop :=
  decode 0x0000000000000003#64 = .ok .add ∧
  ∀ s : State,
    (s.ctx.mode = .none → exec .add s = .next (s.ended .noFilter false)) ∧
    (s.ctx.mode ≠ .none → s.operands.len = 0 → exec .add s = .next (s.ended .ok false)) ∧
    (s.ctx.mode ≠ .none → s.operands.len ≠ 0 →
      Config.params.bufBytes < s.operands.addr.toNat + s.operands.len.toNat →
      exec .add s = .next (s.ended .bufferRange false)) ∧
    (s.ctx.mode = .gen → s.operands.len ≠ 0 →
      s.operands.addr.toNat + s.operands.len.toNat ≤ Config.params.bufBytes → s.ctx.m = 0 →
      exec .add s = .next (s.ended .zeroCapacity false)) ∧
    (s.ctx.mode = .gen → s.operands.len ≠ 0 →
      s.operands.addr.toNat + s.operands.len.toNat ≤ Config.params.bufBytes → s.ctx.m ≠ 0 →
      ∃ bv', exec .add s =
          .next ({ s with bv := bv', ctx := { s.ctx with n := s.ctx.n + 1 } }.ended .ok false) ∧
        ∀ b, bvBit bv' b = true ↔ bvBit s.bv b = true ∨
          ∃ pos ∈ genPositions Config.params s.key s.ctx.k, pos.toNat % s.ctx.m.toNat = b) ∧
    (s.ctx.mode = .fix → s.operands.len ≠ 0 →
      s.operands.addr.toNat + s.operands.len.toNat ≤ Config.params.bufBytes →
      ∃ fa', exec .add s = .next ({ s with fa := fa' }.ended .ok false) ∧
        ∀ i b, faBit fa' i b = true ↔ faBit s.fa i b = true ∨
          ∃ q ∈ fixedPairs Config.params s.key s.ctx.k, q.bytePos = i ∧ q.bitPos.toNat = b)

/-- 42_filter_core.md R153 and 43_fixed_filter.md R183: TEST in both modes. -/
def Obligations.TestFollowsItsRule : Prop :=
  decode 0x0000000000000004#64 = .ok .test ∧
  ∀ s : State,
    (s.ctx.mode = .none → exec .test s = .next (s.ended .noFilter false)) ∧
    (s.ctx.mode ≠ .none → s.operands.len = 0 → exec .test s = .next (s.ended .ok false)) ∧
    (s.ctx.mode ≠ .none → s.operands.len ≠ 0 →
      Config.params.bufBytes < s.operands.addr.toNat + s.operands.len.toNat →
      exec .test s = .next (s.ended .bufferRange false)) ∧
    (s.ctx.mode = .gen → s.operands.len ≠ 0 →
      s.operands.addr.toNat + s.operands.len.toNat ≤ Config.params.bufBytes → s.ctx.m = 0 →
      exec .test s = .next (s.ended .zeroCapacity false)) ∧
    (s.ctx.mode = .gen → s.operands.len ≠ 0 →
      s.operands.addr.toNat + s.operands.len.toNat ≤ Config.params.bufBytes → s.ctx.m ≠ 0 →
      exec .test s = .next (s.ended .ok
        (decide (∀ pos ∈ genPositions Config.params s.key s.ctx.k,
          bvBit s.bv (pos.toNat % s.ctx.m.toNat) = true)))) ∧
    (s.ctx.mode = .fix → s.operands.len ≠ 0 →
      s.operands.addr.toNat + s.operands.len.toNat ≤ Config.params.bufBytes →
      exec .test s = .next (s.ended .ok
        (decide (∀ q ∈ fixedPairs Config.params s.key s.ctx.k,
          faBit s.fa q.bytePos q.bitPos.toNat = true))))

/-- 42_filter_core.md R161: after an ADD of a non-empty key that completes with code 0x00, TEST of that key
gives RESULT = 1 as long as the filter is not replaced, whatever runs and whatever the host does between: a
replacing command that fails is allowed (R163). -/
def Obligations.NoFalseNegatives : Prop :=
  ∀ (s t u : State) (c : Nat), s.operands.len ≠ 0 → exec .add s = .next t → t.err = .ok →
    FilterRun t c u → u.key = s.key →
    u.operands.addr.toNat + u.operands.len.toNat ≤ Config.params.bufBytes →
    exec .test u = .next (u.ended .ok true)

/-- 42_filter_core.md R155: in GEN mode every non-empty ADD that completes with code 0x00 increments n by 1,
and nothing else that keeps the filter, a failing replacing command included (R163), changes m, k, n or the
mode. -/
def Obligations.NumElementsCountsAdds : Prop :=
  ∀ (s t : State) (c : Nat), s.ctx.mode = .gen → FilterRun s c t →
    t.ctx = { s.ctx with n := s.ctx.n + BitVec.ofNat 64 c }

/-- 43_fixed_filter.md R184: in FIX mode no command that keeps the filter changes ctx, so N stays 0. -/
def Obligations.FixedFilterHasNoCounter : Prop :=
  ∀ (s t : State) (c : Nat), s.ctx.mode = .fix → s.ctx.n = 0 → FilterRun s c t →
    t.ctx = s.ctx ∧ t.readReg Config.params .n = 0

/-! ## SETBIT and TESTBIT -/

/-- 40_bitarray.md R116 (R111, R112, R113): SETBIT. -/
def Obligations.SetbitFollowsItsRule : Prop :=
  decode 0x0000000000000008#64 = .ok .setbit ∧
  ∀ s : State,
    (s.ctx.mode = .none → exec .setbit s = .next (s.ended .noFilter false)) ∧
    (s.ctx.mode = .fix → exec .setbit s = .next (s.ended .wrongMode false)) ∧
    (s.ctx.mode = .gen → s.ctx.m = 0 → exec .setbit s = .next (s.ended .zeroCapacity false)) ∧
    (s.ctx.mode = .gen → s.ctx.m ≠ 0 →
      ∃ bv', exec .setbit s = .next ({ s with bv := bv' }.ended .ok false) ∧
        ∀ b, bvBit bv' b = true ↔ bvBit s.bv b = true ∨
          b = s.operands.argPos.toNat % s.ctx.m.toNat)

/-- 40_bitarray.md R117 (R111, R112, R114): TESTBIT. -/
def Obligations.TestbitFollowsItsRule : Prop :=
  decode 0x0000000000000009#64 = .ok .testbit ∧
  ∀ s : State,
    (s.ctx.mode = .none → exec .testbit s = .next (s.ended .noFilter false)) ∧
    (s.ctx.mode = .fix → exec .testbit s = .next (s.ended .wrongMode false)) ∧
    (s.ctx.mode = .gen → s.ctx.m = 0 → exec .testbit s = .next (s.ended .zeroCapacity false)) ∧
    (s.ctx.mode = .gen → s.ctx.m ≠ 0 →
      exec .testbit s = .next (s.ended .ok
        (bvBit s.bv (s.operands.argPos.toNat % s.ctx.m.toNat))))

/-- 40_bitarray.md R115: no step clears a bit of BV but a CONSTRUCT, a DESERIALIZE or the reset input. -/
def Obligations.BucketBitsAreNeverCleared : Prop :=
  ∀ (s t : State) (b : Nat), step s = .next t → bvBit s.bv b = true → bvBit t.bv b = false →
    s.runs .construct ∨ s.runs .deserialize ∨ s.agenda.head? = some .reset

/-- 43_fixed_filter.md R185: no step clears a bit of FA but a CONSTRUCT_FIXED, a LOAD_FIXED or the reset
input. -/
def Obligations.FixedBitsAreNeverCleared : Prop :=
  ∀ (s t : State) (i : Byte) (b : Nat), step s = .next t →
    faBit s.fa i b = true → faBit t.fa i b = false →
    s.runs .constructFixed ∨ s.runs .loadFixed ∨ s.agenda.head? = some .reset

/-- 40_bitarray.md R118: SETBIT and ADD write no bit at or above m, and TEST and TESTBIT give the same end
whatever those bits are. -/
def Obligations.BitsBeyondCapacityAreNeverTouched : Prop :=
  (∀ (i : Instr) (s t : State) (b : Nat), i = .setbit ∨ i = .add → s.ctx.mode = .gen →
    s.ctx.m.toNat ≤ b → exec i s = .next t → bvBit t.bv b = bvBit s.bv b) ∧
  (∀ (i : Instr) (s t : State) (bv' : Buckets), i = .testbit ∨ i = .test → s.ctx.mode = .gen →
    (∀ b, b < s.ctx.m.toNat → bvBit bv' b = bvBit s.bv b) → exec i s = .next t →
    exec i { s with bv := bv' } = .next { t with bv := bv' })

/-! ## The codec -/

/-- 20_memory.md R70 (and R72): the layout of a general image. -/
def Obligations.GeneralImageLayout : Prop :=
  ∀ (p : Params) (c : Ctx) (bv : Buckets),
    (generalImage p c bv).length = 24 + 8 * ((c.m.toNat + 63) / 64) + 32 ∧
    slice (generalImage p c bv) 0 8 = be8 c.m ∧
    slice (generalImage p c bv) 8 8 = be8 c.k ∧
    slice (generalImage p c bv) 16 8 = be8 c.n ∧
    (∀ w, w < (c.m.toNat + 63) / 64 →
      slice (generalImage p c bv) (24 + 8 * w) 8 = be8 (Buckets.read bv w)) ∧
    slice (generalImage p c bv) (24 + 8 * ((c.m.toNat + 63) / 64)) 32 =
      (p.hash ((generalImage p c bv).take (24 + 8 * ((c.m.toNat + 63) / 64)))).toList

/-- 20_memory.md R73: where filter bit b lies in the image. -/
def Obligations.FilterBitInTheImage : Prop :=
  ∀ (p : Params) (c : Ctx) (bv : Buckets) (b : Nat), b < c.m.toNat →
    ∃ x, (generalImage p c bv)[24 + 8 * (b / 64) + 7 - (b % 64) / 8]? = some x ∧
      x.getLsbD (b % 64 % 8) = bvBit bv b

/-- 44_codec.md R200: SERIALIZE in both modes; no byte outside the image changes, and a second SERIALIZE
writes the same bytes. -/
def Obligations.SerializeFollowsItsRule : Prop :=
  decode 0x0000000000000005#64 = .ok .serialize ∧
  ∀ s : State,
    (s.ctx.mode = .none → exec .serialize s = .next (s.ended .noFilter false)) ∧
    (s.ctx.mode = .gen →
      Config.params.bufBytes <
        s.operands.addr.toNat + (24 + 8 * ((s.ctx.m.toNat + 63) / 64) + 32) →
      exec .serialize s = .next (s.ended .bufferRange false)) ∧
    (s.ctx.mode = .fix → Config.params.bufBytes < s.operands.addr.toNat + 256 →
      exec .serialize s = .next (s.ended .bufferRange false)) ∧
    (s.ctx.mode = .gen →
      s.operands.addr.toNat + (24 + 8 * ((s.ctx.m.toNat + 63) / 64) + 32) ≤
        Config.params.bufBytes →
      ∃ buf', exec .serialize s =
          .next ({ s with
            buf := buf'
            outLen := BitVec.ofNat 64 (24 + 8 * ((s.ctx.m.toNat + 63) / 64) + 32) }.ended
              .ok false) ∧
        (∀ i, i < 24 + 8 * ((s.ctx.m.toNat + 63) / 64) + 32 →
          Memory.read buf' (s.operands.addr.toNat + i) =
            (generalImage Config.params s.ctx s.bv)[i]?) ∧
        ∀ a, a < s.operands.addr.toNat ∨
            s.operands.addr.toNat + (24 + 8 * ((s.ctx.m.toNat + 63) / 64) + 32) ≤ a →
          Memory.read buf' a = Memory.read s.buf a) ∧
    (s.ctx.mode = .fix → s.operands.addr.toNat + 256 ≤ Config.params.bufBytes →
      ∃ buf', exec .serialize s = .next ({ s with buf := buf', outLen := 256 }.ended .ok false) ∧
        (∀ i : Byte, Memory.read buf' (s.operands.addr.toNat + i.toNat) = some (faRead s.fa i)) ∧
        ∀ a, a < s.operands.addr.toNat ∨ s.operands.addr.toNat + 256 ≤ a →
          Memory.read buf' a = Memory.read s.buf a) ∧
    (∀ t, s.inFlight = none → exec .serialize s = .next t →
      ∃ u, exec .serialize t = .next u ∧ u.outLen = t.outLen ∧
        ∀ a, Memory.read u.buf a = Memory.read t.buf a)

/-- 44_codec.md R203, R204: the errors of DESERIALIZE, in order. -/
def Obligations.DeserializeErrorsInOrder : Prop :=
  ∀ (s : State) (L : Nat), L = s.operands.len.toNat →
    (Config.params.bufBytes < s.operands.addr.toNat + L →
      exec .deserialize s = .next (s.ended .bufferRange false)) ∧
    (s.operands.addr.toNat + L ≤ Config.params.bufBytes → L < 32 →
      exec .deserialize s = .next (s.ended .truncatedData false)) ∧
    (s.operands.addr.toNat + L ≤ Config.params.bufBytes → 32 ≤ L →
      (Config.params.hash (s.image.take (L - 32))).toList ≠ s.image.drop (L - 32) →
      exec .deserialize s = .next (s.ended .hashMismatch false)) ∧
    (s.operands.addr.toNat + L ≤ Config.params.bufBytes → 32 ≤ L →
      (Config.params.hash (s.image.take (L - 32))).toList = s.image.drop (L - 32) → L < 56 →
      exec .deserialize s = .next (s.ended .truncatedData false)) ∧
    (s.operands.addr.toNat + L ≤ Config.params.bufBytes → 56 ≤ L →
      (Config.params.hash (s.image.take (L - 32))).toList = s.image.drop (L - 32) →
      ∃ t, exec .deserialize s = .next t ∧ (t.err ≠ .ok → t = s.ended t.err false) ∧
        t.err =
          if L - 56 < 8 * (((be64dec (slice s.image 0 8)).toNat + 63) / 64) then .truncatedData
          else if Config.params.mMax < (be64dec (slice s.image 0 8)).toNat then .capacityExceeded
          else .ok)

/-- 44_codec.md R203, R207, R208, R209: DESERIALIZE of an image that loads, excess bytes or not. -/
def Obligations.DeserializeLoadsTheImage : Prop :=
  decode 0x0000000000000006#64 = .ok .deserialize ∧
  ∀ (s : State) (L : Nat) (m : Word), L = s.operands.len.toNat →
    m = be64dec (slice s.image 0 8) →
    s.operands.addr.toNat + L ≤ Config.params.bufBytes → 56 ≤ L →
    (Config.params.hash (s.image.take (L - 32))).toList = s.image.drop (L - 32) →
    8 * ((m.toNat + 63) / 64) ≤ L - 56 → m.toNat ≤ Config.params.mMax →
    ∃ bv', exec .deserialize s =
        .next ({ s with
          ctx := ⟨.gen, m, be64dec (slice s.image 8 8), be64dec (slice s.image 16 8)⟩
          bv := bv' }.ended .ok false) ∧
      ∀ w, Buckets.read bv' w =
        if w < (m.toNat + 63) / 64 then be64dec (slice s.image (24 + 8 * w) 8)
        else Buckets.read s.bv w

/-- 44_codec.md R210, R211 (the order of the checks is the spec's decision D40): LOAD_FIXED. A byte of the
image that nothing has written is the free value of the step's draw, which is the model's choice (A3, A13). -/
def Obligations.LoadFixedFollowsItsRule : Prop :=
  decode 0x0000000000000007#64 = .ok .loadFixed ∧
  ∀ s : State,
    (s.operands.argM ≠ 2048 ∨ s.operands.argK = 0 ∨ 16 < s.operands.argK.toNat →
      exec .loadFixed s = .next (s.ended .invalidParameter false)) ∧
    (s.operands.argM = 2048 → s.operands.argK ≠ 0 → s.operands.argK.toNat ≤ 16 →
      s.operands.len ≠ 256 → exec .loadFixed s = .next (s.ended .sizeMismatch false)) ∧
    (s.operands.argM = 2048 → s.operands.argK ≠ 0 → s.operands.argK.toNat ≤ 16 →
      s.operands.len = 256 → Config.params.bufBytes < s.operands.addr.toNat + 256 →
      exec .loadFixed s = .next (s.ended .bufferRange false)) ∧
    (s.operands.argM = 2048 → s.operands.argK ≠ 0 → s.operands.argK.toNat ≤ 16 →
      s.operands.len = 256 → s.operands.addr.toNat + 256 ≤ Config.params.bufBytes →
      ∃ fa', exec .loadFixed s =
          .next ({ s with ctx := ⟨.fix, 2048, s.operands.argK, 0⟩, fa := fa' }.ended .ok false) ∧
        ∀ i : Byte,
          faRead fa' i = Memory.readAny s.buf s.draws (s.operands.addr.toNat + i.toNat))

/-- 44_codec.md R212, general filter: SERIALIZE, then DESERIALIZE of what it wrote in any later state whose
BUF is the same, gives back m, k, n and the live words, so every TEST of a key answers as before. -/
def Obligations.GeneralRoundTrip : Prop :=
  ∀ s t u : State, s.ctx.mode = .gen → s.ctx.m.toNat ≤ Config.params.mMax →
    s.operands.addr.toNat + (24 + 8 * ((s.ctx.m.toNat + 63) / 64) + 32) ≤
      Config.params.bufBytes →
    exec .serialize s = .next t → u.buf = t.buf → u.operands.addr = s.operands.addr →
    u.operands.len = t.outLen →
    ∃ v, exec .deserialize u = .next v ∧ v.err = .ok ∧ v.ctx = s.ctx ∧
      (∀ w, w < (s.ctx.m.toNat + 63) / 64 → Buckets.read v.bv w = Buckets.read s.bv w) ∧
      ∀ x y x' y' : State, x.ctx = s.ctx → x.bv = s.bv → y.ctx = v.ctx → y.bv = v.bv →
        x.key = y.key → exec .test x = .next x' → exec .test y = .next y' →
        x'.err = .ok → y'.err = .ok → x'.result = y'.result

/-- 44_codec.md R212, fixed filter: SERIALIZE, then LOAD_FIXED with the same k and LEN = 256, gives FA
back. -/
def Obligations.FixedRoundTrip : Prop :=
  ∀ s t u : State, s.ctx.mode = .fix → s.ctx.m = 2048 → s.ctx.k ≠ 0 → s.ctx.k.toNat ≤ 16 →
    s.ctx.n = 0 → s.operands.addr.toNat + 256 ≤ Config.params.bufBytes →
    exec .serialize s = .next t → u.buf = t.buf → u.operands.addr = s.operands.addr →
    u.operands.len = 256 → u.operands.argM = 2048 → u.operands.argK = s.ctx.k →
    ∃ v, exec .loadFixed u = .next v ∧ v.err = .ok ∧ v.ctx = s.ctx ∧ v.fa = s.fa

/-- 44_codec.md R213: one changed byte of a serialized image. In the checksum it always gives HashMismatch;
in the prefix exactly when the hash of the changed prefix differs. -/
def Obligations.ChecksumSensitivity : Prop :=
  ∀ (s t u : State) (j : Nat) (b : Byte) (X : Nat) (pre : List Byte), s.ctx.mode = .gen →
    X = 24 + 8 * ((s.ctx.m.toNat + 63) / 64) →
    s.ctx.m.toNat ≤ Config.params.mMax →
    s.operands.addr.toNat + (X + 32) ≤ Config.params.bufBytes →
    exec .serialize s = .next t → j < X + 32 →
    Memory.read t.buf (s.operands.addr.toNat + j) ≠ some b →
    u.buf = Memory.write t.buf (s.operands.addr.toNat + j) b →
    u.operands.addr = s.operands.addr → u.operands.len = t.outLen →
    pre = (generalImage Config.params s.ctx s.bv).take X →
    (X ≤ j → exec .deserialize u = .next (u.ended .hashMismatch false)) ∧
    (j < X →
      (exec .deserialize u = .next (u.ended .hashMismatch false) ↔
        Config.params.hash (pre.set j b) ≠ Config.params.hash pre))

/-- 44_codec.md R214: a general image that lost t bytes of its bucket region and got the checksum of what is
left gives TruncatedData, for every hash. -/
def Obligations.TruncatedImagesAreRejected : Prop :=
  ∀ (u : State) (c : Ctx) (bv : Buckets) (W n : Nat) (pre : List Byte),
    W = (c.m.toNat + 63) / 64 → 1 ≤ W → 1 ≤ n → n ≤ 8 * W →
    pre = (generalImage Config.params c bv).take (24 + 8 * W - n) →
    u.image = pre ++ (Config.params.hash pre).toList →
    u.operands.addr.toNat + u.operands.len.toNat ≤ Config.params.bufBytes →
    exec .deserialize u = .next (u.ended .truncatedData false)

/-! ## Registers, buffer and interrupt -/

/-- 10_state.md R26: every bit of STATUS, and what a write to it does. While BUSY = 1, bit 3 reads as at the
issue (20_memory.md R79; A16). -/
def Obligations.StatusFields : Prop :=
  ∀ s : State,
    s.readReg Config.params .status = s.status ∧
    s.status.getLsbD 0 = s.busy ∧ s.status.getLsbD 1 = s.done ∧ s.status.getLsbD 2 = s.result ∧
    (s.inFlight = none → s.status.getLsbD 3 = s.awb) ∧
    (∀ f, s.inFlight = some f → s.status.getLsbD 3 = f.awb) ∧
    s.status.extractLsb' 4 2 =
      (match s.ctx.mode with | .none => 0#2 | .gen => 1#2 | .fix => 2#2) ∧
    s.status.extractLsb' 6 2 = 0 ∧ s.status.extractLsb' 8 8 = s.err.code ∧
    s.status.extractLsb' 16 48 = 0 ∧
    ∀ (v : Word) (rest : List Event), s.agenda = .access (.w64 0x010 v) :: rest →
      step s = .next { s with
        agenda := rest, draws := s.draws + 1
        done := s.done && !v.getLsbD 1, awb := s.awb && !v.getLsbD 3 }

/-- 10_state.md R22 to R24, R34 to R38: what a 64-bit read of each offset returns, reserved ones included;
a read changes nothing of the engine. While BUSY = 1, IRQ_EN reads as at the issue (20_memory.md R79; A16). -/
def Obligations.RegisterReads : Prop :=
  ∀ (s : State) (off : Nat) (rest : List Event), off < 0x1000 → off % 8 = 0 →
    s.agenda = .access (.r64 off) :: rest →
    ∃ v, step s = .next { s with
        agenda := rest, draws := s.draws + 1, hostSaw := .word v :: s.hostSaw } ∧
      (off = 0x000 → v = 0x424C4F4F4D000007#64) ∧ (off = 0x008 → v = 0) ∧
      (off = 0x010 → v = s.status) ∧
      (off = 0x018 → s.inFlight = none → v = if s.doneIe then 1 else 0) ∧
      (off = 0x018 → ∀ f, s.inFlight = some f → v = if f.doneIe then 1 else 0) ∧ (off = 0x020 → v = s.ops.argM) ∧
      (off = 0x028 → v = s.ops.argK) ∧ (off = 0x030 → v = s.ops.argPos) ∧
      (off = 0x038 → v = s.ops.addr) ∧ (off = 0x040 → v = s.ops.len) ∧
      (off = 0x048 → v = s.outLen) ∧ (off = 0x050 → v = s.ctx.m) ∧ (off = 0x058 → v = s.ctx.k) ∧
      (off = 0x060 → v = s.ctx.n) ∧ (off = 0x068 → v.toNat = Config.params.mMax) ∧
      (off = 0x070 → v.toNat = Config.params.bufBytes) ∧ (0x078 ≤ off → v = 0)

/-- 10_state.md R31 and R275: an idle host write to an operand register stores the value in that register
alone; while BUSY = 1 it sets AWB alone. -/
def Obligations.OperandRegisterWrites : Prop :=
  ∀ (s : State) (off : Nat) (v : Word) (rest : List Event),
    off ∈ [0x020, 0x028, 0x030, 0x038, 0x040] → s.agenda = .access (.w64 off v) :: rest →
    (s.busy = true → step s = .next { s with agenda := rest, draws := s.draws + 1, awb := true }) ∧
    (s.busy = false → ∃ o, step s = .next { s with agenda := rest, draws := s.draws + 1, ops := o } ∧
      o.argM = (if off = 0x020 then v else s.ops.argM) ∧
      o.argK = (if off = 0x028 then v else s.ops.argK) ∧
      o.argPos = (if off = 0x030 then v else s.ops.argPos) ∧
      o.addr = (if off = 0x038 then v else s.ops.addr) ∧
      o.len = (if off = 0x040 then v else s.ops.len))

/-- 10_state.md R23: a write to a read-only register or a reserved offset has no effect and does not set
AWB, whether BUSY or not. -/
def Obligations.ReadOnlyWritesAreIgnored : Prop :=
  ∀ (s : State) (off : Nat) (v : Word) (rest : List Event), off < 0x1000 → off % 8 = 0 →
    off ∈ [0x000, 0x048, 0x050, 0x058, 0x060, 0x068, 0x070] ∨ 0x078 ≤ off →
    s.agenda = .access (.w64 off v) :: rest →
    step s = .next { s with agenda := rest, draws := s.draws + 1 }

/-- 10_state.md R33 and 60_exceptions.md R244: IRQ_EN takes bit 0 at any time, and irq is DONE and DONE_IE at
once, also when DONE is cleared. -/
def Obligations.InterruptFollowsDoneAndEnable : Prop :=
  ∀ (s : State) (v : Word) (rest : List Event),
    s.irq = (s.done && s.doneIe) ∧
    (s.agenda = .access (.w64 0x018 v) :: rest →
      ∃ t, step s = .next t ∧
        t = { s with agenda := rest, draws := s.draws + 1, doneIe := v.getLsbD 0 } ∧
        t.irq = (s.done && v.getLsbD 0)) ∧
    (s.agenda = .access (.w64 0x010 v) :: rest → v.getLsbD 1 = true →
      ∃ t, step s = .next t ∧ t.irq = false)

/-- 20_memory.md R62: a host write of one BUF byte, idle or busy, and what any read then finds. -/
def Obligations.BufferByteWrites : Prop :=
  ∀ (s : State) (i : Nat) (b : Byte) (rest : List Event), i < Config.params.bufBytes →
    s.agenda = .access (.w8 (0x10000 + i) b) :: rest →
    (s.busy = true → step s = .next { s with agenda := rest, draws := s.draws + 1, awb := true }) ∧
    (s.busy = false → ∃ buf',
      step s = .next { s with agenda := rest, draws := s.draws + 1, buf := buf' } ∧
      Memory.read buf' i = some b ∧ ∀ j, j ≠ i → Memory.read buf' j = Memory.read s.buf j)

/-- 20_memory.md R60, R62, R69, R79: a host read of one BUF byte gives the byte written last, or any value
where nothing wrote it or while BUSY = 1; it changes nothing of the engine. -/
def Obligations.BufferByteReads : Prop :=
  ∀ (s : State) (i : Nat) (rest : List Event), i < Config.params.bufBytes →
    s.agenda = .access (.r8 (0x10000 + i)) :: rest →
    ∃ b, step s = .next { s with
        agenda := rest, draws := s.draws + 1, hostSaw := .byte b :: s.hostSaw } ∧
      (s.busy = false → ∀ x, Memory.read s.buf i = some x → b = x) ∧
      (s.busy = false → Memory.read s.buf i = none → b = Config.freeByte (s.draws + 1) i) ∧
      (s.busy = true → b = Config.freeByte (s.draws + 1) i)

/-- 70_reset_and_hazards.md R275 and 10_state.md R45: while a command is in flight, no host access changes
the command, its operands or anything it reads or writes. -/
def Obligations.AccessesWhileBusyDoNotReachTheCommand : Prop :=
  ∀ (s t : State) (a : Access) (rest : List Event), s.agenda = .access a :: rest → s.busy = true →
    step s = .next t →
    t.inFlight = s.inFlight ∧ t.ops = s.ops ∧ t.ctx = s.ctx ∧ t.bv = s.bv ∧ t.fa = s.fa ∧
    t.buf = s.buf ∧ t.outLen = s.outLen ∧ t.err = s.err ∧ t.result = s.result ∧
    (t.done = true → s.done = true)

/-- The only steps without a next state are host accesses of a form that does not exist; every command
reaches its commit (60_exceptions.md R240; 30_encoding.md R96). -/
def Obligations.OnlyUnsupportedAccessesStop : Prop :=
  ∀ s : State, (∃ t, step s = .next t) ↔
    ∀ a, s.agenda.head? = some (.access a) → a.supported Config.params

/-- 10_state.md R23, 20_memory.md R61, R62: an access outside both windows, a register access that is not 64
bits at a multiple of 8, and a BUF access wider than a byte have no step, each under its own name. -/
def Obligations.UnsupportedAccessesHaveNoStep : Prop :=
  ∀ (s : State) (a : Access) (rest : List Event), s.agenda = .access a :: rest →
    (0x1000 ≤ a.addr → a.addr < 0x10000 ∨ 0x10000 + Config.params.bufBytes ≤ a.addr →
      step s = .fault (.unmapped a.addr)) ∧
    (a.addr < 0x1000 → (∀ v, a ≠ .w64 a.addr v) → a ≠ .r64 a.addr →
      step s = .refused (.registerAccess a.addr)) ∧
    (a.addr < 0x1000 → a.addr % 8 ≠ 0 → step s = .refused (.registerAccess a.addr)) ∧
    (0x10000 ≤ a.addr → a.addr < 0x10000 + Config.params.bufBytes →
      (∀ b, a ≠ .w8 a.addr b) → a ≠ .r8 a.addr → step s = .refused (.wideBuffer a.addr))

/-! ## Reset -/

/-- 10_state.md R48, the values the spec gives: all but BV, FA (unspecified there) and the model's own
fields. -/
def Obligations.ResetValues : Prop :=
  State.reset.status = 0 ∧ State.reset.irqEn = 0 ∧ State.reset.irq = false ∧
  State.reset.ops = ⟨0, 0, 0, 0, 0⟩ ∧ State.reset.outLen = 0 ∧
  State.reset.ctx = ⟨.none, 0, 0, 0⟩ ∧ State.reset.inFlight = none ∧
  State.reset.readReg Config.params .id = 0x424C4F4F4D000007#64 ∧
  State.reset.readReg Config.params .m = 0 ∧ State.reset.readReg Config.params .k = 0 ∧
  State.reset.readReg Config.params .n = 0 ∧
  ∀ i, Memory.read State.reset.buf i = none

/-- 70_reset_and_hazards.md R270, R271: the reset input discards a command in flight without commit and
leaves every register and context field as after reset; afterwards no filter is live. Reset is one event with
no duration (the model's choice A17). -/
def Obligations.ResetInputDiscardsTheCommand : Prop :=
  ∀ (s : State) (rest : List Event), s.agenda = .reset :: rest →
    ∃ t, step s = .next t ∧ t.status = 0 ∧ t.irqEn = 0 ∧ t.irq = false ∧
      t.ops = ⟨0, 0, 0, 0, 0⟩ ∧ t.outLen = 0 ∧ t.ctx = ⟨.none, 0, 0, 0⟩ ∧ t.inFlight = none ∧
      (∀ i, Memory.read t.buf i = none) ∧
      ∀ i, i ∈ [Instr.add, .test, .serialize, .setbit, .testbit] →
        exec i t = .next (t.ended .noFilter false)

/-! ## Whole machine -/

/-- The state after reset meets the invariant. -/
def Obligations.ResetMeetsInvariant : Prop := State.reset.Inv

/-- Every step keeps the invariant: canonical stores inside their bounds, a context the mode allows
(10_state.md R43, R44), DONE = 0 while BUSY, operands latched (R32). -/
def Obligations.StepKeepsInvariant : Prop :=
  ∀ s t : State, s.Inv → step s = .next t → t.Inv

/-- What the dead stores hold is never observable (10_state.md R40, R41, R48; 93_implementation_defined.md
I10): two states that differ only there stay so, and every host read returns the same value. -/
def Obligations.DeadStoresAreNeverObservable : Prop :=
  ∀ s t s' : State, s.LiveEq t → step s = .next s' → ∃ t', step t = .next t' ∧ s'.LiveEq t'

/-! ## Reads while busy -/

/-- 20_memory.md R79, registers (and 70_reset_and_hazards.md R277): the issue leaves what a host reads of every
register but for BUSY = 1 and DONE = 0 in STATUS, and so does every step after it before the commit, whatever the
host writes. The premise `Inv` is the invariant of StepKeepsInvariant. -/
def Obligations.RegisterReadsWhileBusyAreOld : Prop :=
  ∀ s : State,
    (∀ (v : Word) (rest : List Event), s.agenda = .access (.w64 0x008 v) :: rest → s.busy = false →
      ∃ t, step s = .next t ∧ t.busy = true ∧
        (∀ r, r ≠ .status → t.readReg Config.params r = s.readReg Config.params r) ∧
        t.readReg Config.params .status = (s.readReg Config.params .status &&& ~~~2#64) ||| 1#64) ∧
    (s.Inv → s.busy = true → s.status.getLsbD 0 = true ∧ s.status.getLsbD 1 = false ∧
      ∀ t, step s = .next t → t.busy = true →
        ∀ r, t.readReg Config.params r = s.readReg Config.params r)
end

