-- ==== Sys2Proof/Laws/Bytes.lean ====
section
/-! SUPPORT. The laws of byte strings and their big-endian reading (00_scope.md R11; 20_memory.md R66). -/

namespace Sys2Proof.Laws

open Sys2Proof.Machine

@[simp] theorem length_beBytes (n v : Nat) : (beBytes n v).length = n := by
  induction n with
  | zero => rfl
  | succ n ih => simp [beBytes, ih]

@[simp] theorem length_be8 (v : Word) : (be8 v).length = 8 := length_beBytes _ _

/-- Reading back an encoding gives the value, reduced to the encoding's width. -/
theorem beNat_beBytes (n v : Nat) : beNat (beBytes n v) = v % 256 ^ n := by
  induction n with
  | zero => simp [beBytes, beNat, Nat.mod_one]
  | succ n ih =>
    simp only [beBytes, beNat, length_beBytes, ih, BitVec.toNat_ofNat]
    rw [Nat.pow_succ 256 n, Nat.mod_mul (x := v), Nat.mul_comm (v / 256 ^ n % 2 ^ 8), Nat.add_comm]

theorem beNat_lt (s : List Byte) : beNat s < 256 ^ s.length := by
  induction s with
  | nil => simp [beNat]
  | cons b s ih =>
    have hb : b.toNat ≤ 255 := by have := b.isLt; omega
    have := Nat.mul_le_mul_right (256 ^ s.length) hb
    simp only [beNat, List.length_cons, Nat.pow_succ]
    omega

/-- Encoding what a byte string encodes gives it back. -/
theorem beBytes_beNat (s : List Byte) : beBytes s.length (beNat s) = s := by
  induction s with
  | nil => rfl
  | cons b s ih =>
    have hs := beNat_lt s
    have low : ∀ n v c, beBytes n (c * 256 ^ n + v) = beBytes n v := by
      intro n
      induction n with
      | zero => intros; rfl
      | succ n ih' =>
        intro v c
        simp only [beBytes, List.cons.injEq]
        constructor
        · rw [Nat.pow_succ, show c * (256 ^ n * 256) + v = v + 256 ^ n * (256 * c) by ring,
            Nat.add_mul_div_left _ _ (by positivity)]
          apply BitVec.eq_of_toNat_eq
          simp
        · rw [Nat.pow_succ, show c * (256 ^ n * 256) = (c * 256) * 256 ^ n by ring]
          exact ih' v (c * 256)
    simp only [List.length_cons, beBytes, beNat, List.cons.injEq]
    refine ⟨?_, ?_⟩
    · rw [Nat.mul_comm, Nat.mul_add_div (by positivity), Nat.div_eq_of_lt hs, Nat.add_zero,
        BitVec.ofNat_toNat, BitVec.setWidth_eq]
    · rw [low, ih]

/-- be64dec reads back be_8 (20_memory.md R67). -/
@[simp] theorem be64dec_be8 (v : Word) : be64dec (be8 v) = v := by
  apply BitVec.eq_of_toNat_eq
  have := v.isLt
  simp only [be64dec, be8, beNat_beBytes, BitVec.toNat_ofNat]
  omega

theorem be8_be64dec {s : List Byte} (h : s.length = 8) : be8 (be64dec s) = s := by
  have hs := beNat_lt s
  have := beBytes_beNat s
  rw [h] at hs this
  rw [be8, be64dec, BitVec.toNat_ofNat, Nat.mod_eq_of_lt (by omega), this]

/-! ## Slices -/

theorem length_slice {s : List Byte} {i n : Nat} (h : i + n ≤ s.length) :
    (slice s i n).length = n := by
  simp [slice]; omega

theorem slice_append_left {s t : List Byte} {i n : Nat} (h : i + n ≤ s.length) :
    slice (s ++ t) i n = slice s i n := by
  unfold slice
  rw [List.drop_append_of_le_length (by omega), List.take_append_of_le_length (by simp; omega)]

theorem slice_append_right {s t : List Byte} {i n : Nat} (h : s.length ≤ i) :
    slice (s ++ t) i n = slice t (i - s.length) n := by
  unfold slice
  rw [List.drop_append, List.drop_eq_nil_of_le h, List.nil_append]

theorem slice_zero (s : List Byte) : slice s 0 s.length = s := by simp [slice]

/-- The j-th 8-byte field of a sequence of big-endian words. -/
theorem slice_flatMap_be8 (ws : List Word) {j : Nat} (h : j < ws.length) :
    slice (ws.flatMap be8) (8 * j) 8 = be8 ws[j] := by
  induction ws generalizing j with
  | nil => simp at h
  | cons w ws ih =>
    rw [List.flatMap_cons]
    cases j with
    | zero =>
      rw [slice_append_left (by simp)]
      have := slice_zero (be8 w)
      rw [length_be8] at this
      simpa using this
    | succ j =>
      rw [slice_append_right (by rw [length_be8]; omega), length_be8, show 8 * (j + 1) - 8 = 8 * j by omega]
      simpa using ih (by simpa using h)

@[simp] theorem length_flatMap_be8 (ws : List Word) : (ws.flatMap be8).length = 8 * ws.length := by
  induction ws with
  | nil => rfl
  | cons w ws ih => simp [ih]; omega

end Sys2Proof.Laws
end

