-- ==== Sys2Proof/Laws/State.lean ====
section
/-! SUPPORT. One lemma per field per update of State, each true by unfolding, so that no later proof unfolds
a record update. -/

namespace Sys2Proof.Laws

open Sys2Proof.Machine

/-! ## apply -/

@[simp] theorem apply_ops (s : State) (w : Staged) : (s.apply w).ops = s.ops := rfl
@[simp] theorem apply_doneIe (s : State) (w : Staged) : (s.apply w).doneIe = s.doneIe := rfl
@[simp] theorem apply_done (s : State) (w : Staged) : (s.apply w).done = s.done := rfl
@[simp] theorem apply_result (s : State) (w : Staged) : (s.apply w).result = s.result := rfl
@[simp] theorem apply_awb (s : State) (w : Staged) : (s.apply w).awb = s.awb := rfl
@[simp] theorem apply_err (s : State) (w : Staged) : (s.apply w).err = s.err := rfl
@[simp] theorem apply_outLen (s : State) (w : Staged) : (s.apply w).outLen = w.outLen := rfl
@[simp] theorem apply_ctx (s : State) (w : Staged) : (s.apply w).ctx = w.ctx := rfl
@[simp] theorem apply_bv (s : State) (w : Staged) : (s.apply w).bv = w.bv := rfl
@[simp] theorem apply_fa (s : State) (w : Staged) : (s.apply w).fa = w.fa := rfl
@[simp] theorem apply_buf (s : State) (w : Staged) : (s.apply w).buf = w.buf := rfl
@[simp] theorem apply_inFlight (s : State) (w : Staged) : (s.apply w).inFlight = s.inFlight := rfl
@[simp] theorem apply_agenda (s : State) (w : Staged) : (s.apply w).agenda = s.agenda := rfl
@[simp] theorem apply_hostSaw (s : State) (w : Staged) : (s.apply w).hostSaw = s.hostSaw := rfl
@[simp] theorem apply_draws (s : State) (w : Staged) : (s.apply w).draws = s.draws := rfl

/-! ## issue -/

@[simp] theorem issue_ops (s : State) (v : Word) : (s.issue v).ops = s.ops := rfl
@[simp] theorem issue_doneIe (s : State) (v : Word) : (s.issue v).doneIe = s.doneIe := rfl
@[simp] theorem issue_done (s : State) (v : Word) : (s.issue v).done = false := rfl
@[simp] theorem issue_result (s : State) (v : Word) : (s.issue v).result = s.result := rfl
@[simp] theorem issue_awb (s : State) (v : Word) : (s.issue v).awb = s.awb := rfl
@[simp] theorem issue_err (s : State) (v : Word) : (s.issue v).err = s.err := rfl
@[simp] theorem issue_outLen (s : State) (v : Word) : (s.issue v).outLen = s.outLen := rfl
@[simp] theorem issue_ctx (s : State) (v : Word) : (s.issue v).ctx = s.ctx := rfl
@[simp] theorem issue_bv (s : State) (v : Word) : (s.issue v).bv = s.bv := rfl
@[simp] theorem issue_fa (s : State) (v : Word) : (s.issue v).fa = s.fa := rfl
@[simp] theorem issue_buf (s : State) (v : Word) : (s.issue v).buf = s.buf := rfl
@[simp] theorem issue_inFlight (s : State) (v : Word) : (s.issue v).inFlight = some ⟨v, s.ops, s.awb, s.doneIe⟩ := rfl
@[simp] theorem issue_agenda (s : State) (v : Word) : (s.issue v).agenda = s.agenda := rfl
@[simp] theorem issue_hostSaw (s : State) (v : Word) : (s.issue v).hostSaw = s.hostSaw := rfl
@[simp] theorem issue_draws (s : State) (v : Word) : (s.issue v).draws = s.draws := rfl

/-! ## commit -/

@[simp] theorem commit_ops (c : Completion) (s : State) : (commit c s).ops = s.ops := rfl
@[simp] theorem commit_doneIe (c : Completion) (s : State) : (commit c s).doneIe = s.doneIe := rfl
@[simp] theorem commit_done (c : Completion) (s : State) : (commit c s).done = true := rfl
@[simp] theorem commit_result (c : Completion) (s : State) : (commit c s).result = (decide (c.code = .ok) && c.result) := rfl
@[simp] theorem commit_awb (c : Completion) (s : State) : (commit c s).awb = s.awb := rfl
@[simp] theorem commit_err (c : Completion) (s : State) : (commit c s).err = c.code := rfl
@[simp] theorem commit_outLen (c : Completion) (s : State) : (commit c s).outLen = (c.applied s).outLen := rfl
@[simp] theorem commit_ctx (c : Completion) (s : State) : (commit c s).ctx = (c.applied s).ctx := rfl
@[simp] theorem commit_bv (c : Completion) (s : State) : (commit c s).bv = (c.applied s).bv := rfl
@[simp] theorem commit_fa (c : Completion) (s : State) : (commit c s).fa = (c.applied s).fa := rfl
@[simp] theorem commit_buf (c : Completion) (s : State) : (commit c s).buf = (c.applied s).buf := rfl
@[simp] theorem commit_inFlight (c : Completion) (s : State) : (commit c s).inFlight = none := rfl
@[simp] theorem commit_agenda (c : Completion) (s : State) : (commit c s).agenda = s.agenda := rfl
@[simp] theorem commit_hostSaw (c : Completion) (s : State) : (commit c s).hostSaw = s.hostSaw := rfl
@[simp] theorem commit_draws (c : Completion) (s : State) : (commit c s).draws = s.draws := rfl

/-! ## acknowledge -/

@[simp] theorem acknowledge_ops (s : State) : (s.acknowledge).ops = s.ops := rfl
@[simp] theorem acknowledge_doneIe (s : State) : (s.acknowledge).doneIe = s.doneIe := rfl
@[simp] theorem acknowledge_done (s : State) : (s.acknowledge).done = false := rfl
@[simp] theorem acknowledge_result (s : State) : (s.acknowledge).result = s.result := rfl
@[simp] theorem acknowledge_awb (s : State) : (s.acknowledge).awb = s.awb := rfl
@[simp] theorem acknowledge_err (s : State) : (s.acknowledge).err = s.err := rfl
@[simp] theorem acknowledge_outLen (s : State) : (s.acknowledge).outLen = s.outLen := rfl
@[simp] theorem acknowledge_ctx (s : State) : (s.acknowledge).ctx = s.ctx := rfl
@[simp] theorem acknowledge_bv (s : State) : (s.acknowledge).bv = s.bv := rfl
@[simp] theorem acknowledge_fa (s : State) : (s.acknowledge).fa = s.fa := rfl
@[simp] theorem acknowledge_buf (s : State) : (s.acknowledge).buf = s.buf := rfl
@[simp] theorem acknowledge_inFlight (s : State) : (s.acknowledge).inFlight = s.inFlight := rfl
@[simp] theorem acknowledge_agenda (s : State) : (s.acknowledge).agenda = s.agenda := rfl
@[simp] theorem acknowledge_hostSaw (s : State) : (s.acknowledge).hostSaw = s.hostSaw := rfl
@[simp] theorem acknowledge_draws (s : State) : (s.acknowledge).draws = s.draws := rfl

/-! ## lostWrite -/

@[simp] theorem lostWrite_ops (s : State) : (s.lostWrite).ops = s.ops := rfl
@[simp] theorem lostWrite_doneIe (s : State) : (s.lostWrite).doneIe = s.doneIe := rfl
@[simp] theorem lostWrite_done (s : State) : (s.lostWrite).done = s.done := rfl
@[simp] theorem lostWrite_result (s : State) : (s.lostWrite).result = s.result := rfl
@[simp] theorem lostWrite_awb (s : State) : (s.lostWrite).awb = true := rfl
@[simp] theorem lostWrite_err (s : State) : (s.lostWrite).err = s.err := rfl
@[simp] theorem lostWrite_outLen (s : State) : (s.lostWrite).outLen = s.outLen := rfl
@[simp] theorem lostWrite_ctx (s : State) : (s.lostWrite).ctx = s.ctx := rfl
@[simp] theorem lostWrite_bv (s : State) : (s.lostWrite).bv = s.bv := rfl
@[simp] theorem lostWrite_fa (s : State) : (s.lostWrite).fa = s.fa := rfl
@[simp] theorem lostWrite_buf (s : State) : (s.lostWrite).buf = s.buf := rfl
@[simp] theorem lostWrite_inFlight (s : State) : (s.lostWrite).inFlight = s.inFlight := rfl
@[simp] theorem lostWrite_agenda (s : State) : (s.lostWrite).agenda = s.agenda := rfl
@[simp] theorem lostWrite_hostSaw (s : State) : (s.lostWrite).hostSaw = s.hostSaw := rfl
@[simp] theorem lostWrite_draws (s : State) : (s.lostWrite).draws = s.draws := rfl

/-! ## saw -/

@[simp] theorem saw_ops (s : State) (r : Reading) : (s.saw r).ops = s.ops := rfl
@[simp] theorem saw_doneIe (s : State) (r : Reading) : (s.saw r).doneIe = s.doneIe := rfl
@[simp] theorem saw_done (s : State) (r : Reading) : (s.saw r).done = s.done := rfl
@[simp] theorem saw_result (s : State) (r : Reading) : (s.saw r).result = s.result := rfl
@[simp] theorem saw_awb (s : State) (r : Reading) : (s.saw r).awb = s.awb := rfl
@[simp] theorem saw_err (s : State) (r : Reading) : (s.saw r).err = s.err := rfl
@[simp] theorem saw_outLen (s : State) (r : Reading) : (s.saw r).outLen = s.outLen := rfl
@[simp] theorem saw_ctx (s : State) (r : Reading) : (s.saw r).ctx = s.ctx := rfl
@[simp] theorem saw_bv (s : State) (r : Reading) : (s.saw r).bv = s.bv := rfl
@[simp] theorem saw_fa (s : State) (r : Reading) : (s.saw r).fa = s.fa := rfl
@[simp] theorem saw_buf (s : State) (r : Reading) : (s.saw r).buf = s.buf := rfl
@[simp] theorem saw_inFlight (s : State) (r : Reading) : (s.saw r).inFlight = s.inFlight := rfl
@[simp] theorem saw_agenda (s : State) (r : Reading) : (s.saw r).agenda = s.agenda := rfl
@[simp] theorem saw_hostSaw (s : State) (r : Reading) : (s.saw r).hostSaw = r :: s.hostSaw := rfl
@[simp] theorem saw_draws (s : State) (r : Reading) : (s.saw r).draws = s.draws := rfl

/-! ## advance -/

@[simp] theorem advance_ops (s : State) : (s.advance).ops = s.ops := rfl
@[simp] theorem advance_doneIe (s : State) : (s.advance).doneIe = s.doneIe := rfl
@[simp] theorem advance_done (s : State) : (s.advance).done = s.done := rfl
@[simp] theorem advance_result (s : State) : (s.advance).result = s.result := rfl
@[simp] theorem advance_awb (s : State) : (s.advance).awb = s.awb := rfl
@[simp] theorem advance_err (s : State) : (s.advance).err = s.err := rfl
@[simp] theorem advance_outLen (s : State) : (s.advance).outLen = s.outLen := rfl
@[simp] theorem advance_ctx (s : State) : (s.advance).ctx = s.ctx := rfl
@[simp] theorem advance_bv (s : State) : (s.advance).bv = s.bv := rfl
@[simp] theorem advance_fa (s : State) : (s.advance).fa = s.fa := rfl
@[simp] theorem advance_buf (s : State) : (s.advance).buf = s.buf := rfl
@[simp] theorem advance_inFlight (s : State) : (s.advance).inFlight = s.inFlight := rfl
@[simp] theorem advance_agenda (s : State) : (s.advance).agenda = s.agenda.tail := rfl
@[simp] theorem advance_hostSaw (s : State) : (s.advance).hostSaw = s.hostSaw := rfl
@[simp] theorem advance_draws (s : State) : (s.advance).draws = s.draws + 1 := rfl

/-! ## resetLine -/

@[simp] theorem resetLine_ops (s : State) : (s.resetLine).ops = State.reset.ops := rfl
@[simp] theorem resetLine_doneIe (s : State) : (s.resetLine).doneIe = State.reset.doneIe := rfl
@[simp] theorem resetLine_done (s : State) : (s.resetLine).done = State.reset.done := rfl
@[simp] theorem resetLine_result (s : State) : (s.resetLine).result = State.reset.result := rfl
@[simp] theorem resetLine_awb (s : State) : (s.resetLine).awb = State.reset.awb := rfl
@[simp] theorem resetLine_err (s : State) : (s.resetLine).err = State.reset.err := rfl
@[simp] theorem resetLine_outLen (s : State) : (s.resetLine).outLen = State.reset.outLen := rfl
@[simp] theorem resetLine_ctx (s : State) : (s.resetLine).ctx = State.reset.ctx := rfl
@[simp] theorem resetLine_bv (s : State) : (s.resetLine).bv = State.reset.bv := rfl
@[simp] theorem resetLine_fa (s : State) : (s.resetLine).fa = State.reset.fa := rfl
@[simp] theorem resetLine_buf (s : State) : (s.resetLine).buf = State.reset.buf := rfl
@[simp] theorem resetLine_inFlight (s : State) : (s.resetLine).inFlight = State.reset.inFlight := rfl
@[simp] theorem resetLine_agenda (s : State) : (s.resetLine).agenda = s.agenda := rfl
@[simp] theorem resetLine_hostSaw (s : State) : (s.resetLine).hostSaw = s.hostSaw := rfl
@[simp] theorem resetLine_draws (s : State) : (s.resetLine).draws = s.draws := rfl

/-! ## Staged writes -/

@[simp] theorem staged_ctx (s : State) : s.staged.ctx = s.ctx := rfl
@[simp] theorem staged_bv (s : State) : s.staged.bv = s.bv := rfl
@[simp] theorem staged_fa (s : State) : s.staged.fa = s.fa := rfl
@[simp] theorem staged_buf (s : State) : s.staged.buf = s.buf := rfl
@[simp] theorem staged_outLen (s : State) : s.staged.outLen = s.outLen := rfl

@[simp] theorem apply_staged (s : State) : s.apply s.staged = s := rfl

/-! ## Completions -/

@[simp] theorem raise_code (s : State) (e : ErrorCode) : (raise s e).code = e := rfl
@[simp] theorem raise_result (s : State) (e : ErrorCode) : (raise s e).result = false := rfl
@[simp] theorem raise_staged (s : State) (e : ErrorCode) : (raise s e).staged = s.staged := rfl
@[simp] theorem succeed_code (w : Staged) : (succeed w).code = .ok := rfl
@[simp] theorem succeed_result (w : Staged) : (succeed w).result = false := rfl
@[simp] theorem succeed_staged (w : Staged) : (succeed w).staged = w := rfl
@[simp] theorem answer_code (s : State) (r : Bool) : (answer s r).code = .ok := rfl
@[simp] theorem answer_result (s : State) (r : Bool) : (answer s r).result = r := rfl
@[simp] theorem answer_staged (s : State) (r : Bool) : (answer s r).staged = s.staged := rfl

@[simp] theorem applied_raise (s : State) (e : ErrorCode) : (raise s e).applied s = s.staged := by
  unfold Completion.applied; split <;> rfl

@[simp] theorem applied_succeed (s : State) (w : Staged) : (succeed w).applied s = w := by
  simp [Completion.applied]

@[simp] theorem applied_answer (s : State) (r : Bool) : (answer s r).applied s = s.staged := by
  simp [Completion.applied]

/-- An error changes STATUS alone (60_exceptions.md R242). -/
theorem commit_raise (s : State) (e : ErrorCode) :
    commit (raise s e) s =
      { s with err := e, result := false, done := true, inFlight := none } := by
  simp [commit, State.apply, State.staged]

/-- A success makes its staged writes visible (60_exceptions.md R241). -/
theorem commit_succeed (s : State) (w : Staged) :
    commit (succeed w) s =
      { s.apply w with err := .ok, result := false, done := true, inFlight := none } := by
  simp [commit]

/-- The end of TEST and TESTBIT: RESULT, and nothing outside STATUS. -/
theorem commit_answer (s : State) (r : Bool) :
    commit (answer s r) s =
      { s with err := .ok, result := r, done := true, inFlight := none } := by
  simp [commit, State.apply, State.staged]

/-- BUSY is the presence of a command in flight (10_state.md R27, R45). -/
theorem busy_iff (s : State) : s.busy = true ↔ ∃ f, s.inFlight = some f := by
  simp [State.busy, Option.isSome_iff_exists]

@[simp] theorem busy_none {s : State} (h : s.inFlight = none) : s.busy = false := by
  simp [State.busy, h]

/-! ## Reads of AWB and DONE_IE (20_memory.md R79) -/

theorem awbRead_idle {s : State} (h : s.inFlight = none) : s.awbRead = s.awb := by
  simp [State.awbRead, h]

theorem awbRead_busy {s : State} {f : InFlight} (h : s.inFlight = some f) : s.awbRead = f.awb := by
  simp [State.awbRead, h]

theorem doneIeRead_idle {s : State} (h : s.inFlight = none) : s.doneIeRead = s.doneIe := by
  simp [State.doneIeRead, h]

theorem doneIeRead_busy {s : State} {f : InFlight} (h : s.inFlight = some f) :
    s.doneIeRead = f.doneIe := by
  simp [State.doneIeRead, h]

/-- What a host reads of every register while one command is in flight: it does not depend on AWB or DONE_IE
as they stand (20_memory.md R79). -/
theorem readReg_congr_busy {p : Params} {s t : State} {f : InFlight} (hs : s.inFlight = some f)
    (ht : t.inFlight = some f) (ho : t.ops = s.ops) (hd : t.done = s.done) (hr : t.result = s.result)
    (he : t.err = s.err) (hl : t.outLen = s.outLen) (hc : t.ctx = s.ctx) (r : Reg) :
    t.readReg p r = s.readReg p r := by
  cases r <;>
    simp [State.readReg, State.status, State.irqEn, State.awbRead, State.doneIeRead, State.busy, *]

end Sys2Proof.Laws
end

