-- ==== Sys2Proof/Laws/Cells.lean ====
section
/-! SUPPORT. The laws of the sparse stores: read after write, canonical form, and equality of canonical
stores that read alike. -/

namespace Sys2Proof.Laws

open Sys2Proof.Machine

variable {α : Type}

theorem cellGet_cellPut_same (m : List (Nat × α)) (a : Nat) (v : α) :
    cellGet (cellPut m a v) a = some v := by
  induction m with
  | nil => simp [cellPut, cellGet]
  | cons c t ih =>
    obtain ⟨k, w⟩ := c
    simp only [cellPut]
    split
    · simp [cellGet]
    · split
      · simp [cellGet]
      · simp only [cellGet]; split
        · omega
        · exact ih

theorem cellGet_cellPut_other (m : List (Nat × α)) {a b : Nat} (v : α) (h : a ≠ b) :
    cellGet (cellPut m a v) b = cellGet m b := by
  induction m with
  | nil => simp [cellPut, cellGet, h]
  | cons c t ih =>
    obtain ⟨k, w⟩ := c
    simp only [cellPut]
    split
    · simp [cellGet, h]
    · split
      · next hk => subst hk; simp [cellGet, h]
      · simp only [cellGet, ih]

theorem cellGet_cellKeep (keep : Nat → Bool) (m : List (Nat × α)) (a : Nat) :
    cellGet (cellKeep keep m) a = if keep a then cellGet m a else none := by
  induction m with
  | nil => simp [cellKeep, cellGet]
  | cons c t ih =>
    obtain ⟨k, w⟩ := c
    simp only [cellKeep, List.filter_cons] at ih ⊢
    by_cases hka : k = a
    · subst hka
      by_cases hk : keep k = true
      · simp [hk, cellGet]
      · simpa [hk, cellGet] using ih
    · split <;> simp [cellGet, hka, ih]

/-- A listed cell reads as itself in a canonical store. -/
theorem cellGet_of_mem {m : List (Nat × α)} (h : cellsRise m) {c : Nat × α} (hc : c ∈ m) :
    cellGet m c.1 = some c.2 := by
  induction m with
  | nil => simp at hc
  | cons d t ih =>
    obtain ⟨k, w⟩ := d
    rw [cellsRise, List.pairwise_cons] at h
    simp only [cellGet]
    rcases List.mem_cons.mp hc with rfl | hc
    · simp
    · have := h.1 c hc
      rw [if_neg (by simp only at this; omega)]
      exact ih h.2 hc

theorem mem_of_cellGet {m : List (Nat × α)} {a : Nat} {v : α} (h : cellGet m a = some v) :
    (a, v) ∈ m := by
  induction m with
  | nil => simp [cellGet] at h
  | cons d t ih =>
    obtain ⟨k, w⟩ := d
    simp only [cellGet] at h
    split at h
    · next hk => subst hk; simp_all
    · exact List.mem_cons_of_mem _ (ih h)

theorem mem_cellPut {m : List (Nat × α)} {a : Nat} {v : α} {c : Nat × α}
    (h : c ∈ cellPut m a v) : c = (a, v) ∨ c ∈ m := by
  induction m with
  | nil => simpa [cellPut] using h
  | cons d t ih =>
    obtain ⟨k, w⟩ := d
    simp only [cellPut] at h
    split at h
    · simpa using h
    · split at h
      · rcases List.mem_cons.mp h with h | h
        · exact .inl h
        · exact .inr (List.mem_cons_of_mem _ h)
      · rcases List.mem_cons.mp h with h | h
        · exact .inr (h ▸ List.mem_cons_self)
        · exact (ih h).imp_right (List.mem_cons_of_mem _)

/-- A write keeps the canonical form. -/
theorem cellsRise_cellPut {m : List (Nat × α)} (h : cellsRise m) (a : Nat) (v : α) :
    cellsRise (cellPut m a v) := by
  induction m with
  | nil => simp [cellPut, cellsRise]
  | cons d t ih =>
    obtain ⟨k, w⟩ := d
    have h' := List.pairwise_cons.mp h
    simp only [cellPut]
    split
    · next hk =>
      refine List.pairwise_cons.mpr ⟨fun c hc => ?_, h⟩
      rcases List.mem_cons.mp hc with rfl | hc
      · exact hk
      · exact Nat.lt_trans hk (h'.1 c hc)
    · split
      · next hk => subst hk; exact List.pairwise_cons.mpr ⟨h'.1, h'.2⟩
      · refine List.pairwise_cons.mpr ⟨fun c hc => ?_, ih h'.2⟩
        rcases mem_cellPut hc with rfl | hc
        · simp only; omega
        · exact h'.1 c hc

/-- Dropping cells keeps the canonical form. -/
theorem cellsRise_cellKeep {m : List (Nat × α)} (h : cellsRise m) (keep : Nat → Bool) :
    cellsRise (cellKeep keep m) :=
  h.filter _

/-- Canonical stores that read alike are equal. -/
theorem cells_ext {m n : List (Nat × α)} (hm : cellsRise m) (hn : cellsRise n)
    (h : ∀ a, cellGet m a = cellGet n a) : m = n := by
  have mem : ∀ c, c ∈ m ↔ c ∈ n := fun c =>
    ⟨fun hc => mem_of_cellGet (h c.1 ▸ cellGet_of_mem hm hc),
      fun hc => mem_of_cellGet ((h c.1).symm ▸ cellGet_of_mem hn hc)⟩
  refine List.Perm.eq_of_pairwise (le := fun x y => x.1 < y.1) (fun x y _ _ hxy hyx => ?_) hm hn
    ((List.perm_ext_iff_of_nodup ?_ ?_).mpr mem)
  · omega
  · exact hm.imp fun h e => by subst e; simp at h
  · exact hn.imp fun h e => by subst e; simp at h

end Sys2Proof.Laws
end

