-- ==== Sys2Proof/Laws/Memory.lean ====
section
/-! SUPPORT. The laws of BUF and of the bucket store BV: read after write, what a write leaves alone, and
that every operation keeps the canonical form. -/

namespace Sys2Proof.Laws

open Sys2Proof.Machine

/-! ## BUF -/

theorem memory_read_eq (m : Memory) (i : Nat) : Memory.read m i = cellGet m i := by
  unfold Memory.read Memory.unlisted
  cases cellGet m i <;> rfl

@[simp] theorem read_write_same (m : Memory) (i : Nat) (b : Byte) :
    Memory.read (Memory.write m i b) i = some b := by
  rw [memory_read_eq]; exact cellGet_cellPut_same ..

theorem read_write_other (m : Memory) {i j : Nat} (b : Byte) (h : i ≠ j) :
    Memory.read (Memory.write m i b) j = Memory.read m j := by
  rw [memory_read_eq, memory_read_eq]; exact cellGet_cellPut_other _ _ h

/-- A byte-string write, read at any offset. -/
theorem read_writeBytes (m : Memory) (a : Nat) (s : List Byte) (i : Nat) :
    Memory.read (Memory.writeBytes m a s) i =
      if a ≤ i then (s[i - a]?).or (Memory.read m i) else Memory.read m i := by
  induction s generalizing m a with
  | nil => simp [Memory.writeBytes]
  | cons b s ih =>
    rw [Memory.writeBytes, ih]
    rcases Nat.lt_trichotomy i a with h | h | h
    · rw [if_neg (by omega), if_neg (by omega), read_write_other _ _ (by omega)]
    · subst h; simp
    · rw [if_pos (by omega), if_pos (by omega), read_write_other _ _ (by omega),
        show i - a = (i - (a + 1)) + 1 by omega, List.getElem?_cons_succ]

theorem read_writeBytes_inside (m : Memory) (a : Nat) (s : List Byte) {i : Nat}
    (h : i < s.length) : Memory.read (Memory.writeBytes m a s) (a + i) = some s[i] := by
  rw [read_writeBytes, if_pos (by omega), show a + i - a = i by omega,
    List.getElem?_eq_getElem h, Option.some_or]

theorem read_writeBytes_outside (m : Memory) (a : Nat) (s : List Byte) {i : Nat}
    (h : i < a ∨ a + s.length ≤ i) :
    Memory.read (Memory.writeBytes m a s) i = Memory.read m i := by
  rw [read_writeBytes]
  split
  · rw [List.getElem?_eq_none (by omega), Option.none_or]
  · rfl

theorem wf_write {m : Memory} (h : Memory.wf m) (i : Nat) (b : Byte) :
    Memory.wf (Memory.write m i b) := cellsRise_cellPut h i b

theorem wf_writeBytes {m : Memory} (h : Memory.wf m) (a : Nat) (s : List Byte) :
    Memory.wf (Memory.writeBytes m a s) := by
  induction s generalizing m a with
  | nil => exact h
  | cons b s ih => exact ih (wf_write h a b) (a + 1)

theorem bound_write {m : Memory} {n : Nat} (h : ∀ c ∈ m, c.1 < n) {i : Nat} (hi : i < n)
    (b : Byte) : ∀ c ∈ Memory.write m i b, c.1 < n := fun c hc => by
  rcases mem_cellPut hc with rfl | hc
  · exact hi
  · exact h c hc

theorem bound_writeBytes {m : Memory} {n : Nat} (h : ∀ c ∈ m, c.1 < n) {a : Nat} {s : List Byte}
    (hs : a + s.length ≤ n) : ∀ c ∈ Memory.writeBytes m a s, c.1 < n := by
  induction s generalizing m a with
  | nil => exact h
  | cons b s ih =>
    simp only [List.length_cons] at hs
    exact ih (bound_write h (by omega) b) (by omega)

@[simp] theorem length_readBytes (m : Memory) (d a n : Nat) :
    (Memory.readBytes m d a n).length = n := by
  simp [Memory.readBytes]

@[simp] theorem getElem_readBytes (m : Memory) (d a n i : Nat)
    (h : i < (Memory.readBytes m d a n).length) :
    (Memory.readBytes m d a n)[i] = Memory.readAny m d (a + i) := by
  simp [Memory.readBytes]

/-- Reading a region back gives the byte string written there. -/
theorem readBytes_writeBytes (m : Memory) (d a : Nat) (s : List Byte) :
    Memory.readBytes (Memory.writeBytes m a s) d a s.length = s := by
  refine List.ext_getElem (by simp) fun i h1 h2 => ?_
  rw [getElem_readBytes, Memory.readAny, read_writeBytes_inside _ _ _ h2, Option.getD_some]

/-- A region all of whose bytes are written reads the same at every draw. -/
theorem readBytes_of_written {m : Memory} {a n : Nat}
    (h : ∀ i, i < n → (Memory.read m (a + i)).isSome) (d e : Nat) :
    Memory.readBytes m d a n = Memory.readBytes m e a n := by
  refine List.ext_getElem (by simp) fun i h1 h2 => ?_
  rw [length_readBytes] at h1
  obtain ⟨b, hb⟩ := Option.isSome_iff_exists.mp (h i h1)
  simp [Memory.readAny, hb]

/-! ## BV -/

@[simp] theorem bucket_write_same (b : Buckets) (w : Nat) (v : Word) :
    Buckets.read (Buckets.write b w v) w = v := by
  unfold Buckets.read Buckets.write
  split
  · next h => rw [cellGet_cellKeep]; simp [h]
  · rw [cellGet_cellPut_same, Option.getD_some]

theorem bucket_write_other (b : Buckets) {w x : Nat} (v : Word) (h : w ≠ x) :
    Buckets.read (Buckets.write b w v) x = Buckets.read b x := by
  unfold Buckets.read Buckets.write
  split
  · rw [cellGet_cellKeep, if_pos (by simpa using fun e => h e.symm)]
  · rw [cellGet_cellPut_other _ _ h]

theorem bucket_write_read (b : Buckets) (w x : Nat) (v : Word) :
    Buckets.read (Buckets.write b w v) x = if w = x then v else Buckets.read b x := by
  split
  · next h => subst h; simp
  · next h => exact bucket_write_other b v h

theorem bucket_clear_read (b : Buckets) (n x : Nat) :
    Buckets.read (Buckets.clear b n) x = if x < n then 0 else Buckets.read b x := by
  unfold Buckets.read Buckets.clear
  rw [cellGet_cellKeep]
  by_cases h : x < n
  · rw [if_pos h, if_neg (by simpa using h), Option.getD_none]
  · rw [if_neg h, if_pos (by simpa using h)]

theorem bucket_load_read (b : Buckets) (w : Nat) (vs : List Word) (x : Nat) :
    Buckets.read (Buckets.load b w vs) x =
      if w ≤ x then (vs[x - w]?).getD (Buckets.read b x) else Buckets.read b x := by
  induction vs generalizing b w with
  | nil => simp [Buckets.load]
  | cons v vs ih =>
    rw [Buckets.load, ih]
    rcases Nat.lt_trichotomy x w with h | h | h
    · rw [if_neg (by omega), if_neg (by omega), bucket_write_other _ _ (by omega)]
    · subst h; simp
    · rw [if_pos (by omega), if_pos (by omega), bucket_write_other _ _ (by omega),
        show x - w = (x - (w + 1)) + 1 by omega, List.getElem?_cons_succ]

theorem bucket_wf_write {b : Buckets} (h : Buckets.wf b) (w : Nat) (v : Word) :
    Buckets.wf (Buckets.write b w v) := by
  unfold Buckets.write
  split
  · exact ⟨cellsRise_cellKeep h.1 _, fun c hc => h.2 c (List.mem_filter.mp hc).1⟩
  · next hv =>
    refine ⟨cellsRise_cellPut h.1 _ _, fun c hc => ?_⟩
    rcases mem_cellPut hc with rfl | hc
    · exact hv
    · exact h.2 c hc

theorem bucket_wf_clear {b : Buckets} (h : Buckets.wf b) (n : Nat) :
    Buckets.wf (Buckets.clear b n) :=
  ⟨cellsRise_cellKeep h.1 _, fun c hc => h.2 c (List.mem_filter.mp hc).1⟩

theorem bucket_wf_load {b : Buckets} (h : Buckets.wf b) (w : Nat) (vs : List Word) :
    Buckets.wf (Buckets.load b w vs) := by
  induction vs generalizing b w with
  | nil => exact h
  | cons v vs ih => exact ih (bucket_wf_write h w v) (w + 1)

theorem bucket_bound_write {b : Buckets} {n : Nat} (h : ∀ c ∈ b, c.1 < n) {w : Nat} (hw : w < n)
    (v : Word) : ∀ c ∈ Buckets.write b w v, c.1 < n := by
  unfold Buckets.write
  split
  · exact fun c hc => h c (List.mem_filter.mp hc).1
  · intro c hc
    rcases mem_cellPut hc with rfl | hc
    · exact hw
    · exact h c hc

theorem bucket_bound_clear {b : Buckets} {n : Nat} (h : ∀ c ∈ b, c.1 < n) (k : Nat) :
    ∀ c ∈ Buckets.clear b k, c.1 < n :=
  fun c hc => h c (List.mem_filter.mp hc).1

theorem bucket_bound_load {b : Buckets} {n : Nat} (h : ∀ c ∈ b, c.1 < n) {w : Nat}
    {vs : List Word} (hw : w + vs.length ≤ n) : ∀ c ∈ Buckets.load b w vs, c.1 < n := by
  induction vs generalizing b w with
  | nil => exact h
  | cons v vs ih =>
    simp only [List.length_cons] at hw
    exact ih (bucket_bound_write h (by omega) v) (by omega)

/-- Canonical bucket stores that read alike are equal. -/
theorem buckets_ext {a b : Buckets} (ha : Buckets.wf a) (hb : Buckets.wf b)
    (h : ∀ w, Buckets.read a w = Buckets.read b w) : a = b := by
  refine cells_ext ha.1 hb.1 fun w => ?_
  have := h w
  unfold Buckets.read at this
  cases hx : cellGet a w with
  | none =>
    cases hy : cellGet b w with
    | none => rfl
    | some y =>
      rw [hx, hy] at this
      exact absurd this.symm (hb.2 _ (mem_of_cellGet hy))
  | some x =>
    cases hy : cellGet b w with
    | none =>
      rw [hx, hy] at this
      exact absurd this (ha.2 _ (mem_of_cellGet hx))
    | some y => rw [hx, hy] at this; simpa using this

@[simp] theorem length_words (b : Buckets) (n : Nat) : (Buckets.words b n).length = n := by
  simp [Buckets.words]

/-- Loading a store's own words from 0 on gives back what those words read as. -/
theorem load_words_read (a b : Buckets) (n w : Nat) :
    Buckets.read (Buckets.load a 0 (Buckets.words b n)) w =
      if w < n then Buckets.read b w else Buckets.read a w := by
  rw [bucket_load_read, if_pos (by omega), Nat.sub_zero]
  by_cases h : w < n
  · rw [if_pos h, List.getElem?_eq_getElem (by simpa using h)]; simp [Buckets.words]
  · rw [if_neg h, List.getElem?_eq_none (by simpa using h), Option.getD_none]

end Sys2Proof.Laws
end

