-- ==== Sys2Proof/Laws/Filter.lean ====
section
/-! SUPPORT. What the bit operations of both filters do: which bits they read and which they set
(40_bitarray.md R111 to R114; 41_hash_expander.md R133 to R139; 43_fixed_filter.md R182, R183). -/

namespace Sys2Proof.Laws

open Sys2Proof.Machine

/-! ## BitArray -/

theorem getLsbD_bitMask (b j : Nat) (hj : j < 64) : (bitMask b).getLsbD j = decide (j = b) := by
  simp only [bitMask, BitVec.getLsbD_shiftLeft, BitVec.getLsbD_one]
  rw [Bool.eq_iff_iff]
  simp
  omega

theorem bitIndex_lt {m : Word} (h : m ≠ 0) (pos : Word) : bitIndex m pos < m.toNat :=
  Nat.mod_lt _ (Nat.pos_of_ne_zero fun e => h (BitVec.eq_of_toNat_eq (by simpa using e)))

theorem wordCount_le {m : Word} {b : Nat} (h : b < m.toNat) : b / 64 < wordCount m := by
  unfold wordCount; omega

/-- SetBit sets the bit at pos mod m and no other (40_bitarray.md R113). -/
theorem bvBit_setBit (m : Word) (bv : Buckets) (pos : Word) (b : Nat) :
    bvBit (setBit m bv pos) b = (bvBit bv b || decide (b = bitIndex m pos)) := by
  simp only [bvBit, setBit, bucket_write_read]
  by_cases h : bitIndex m pos / 64 = b / 64
  · rw [if_pos h, BitVec.getLsbD_or, h, getLsbD_bitMask _ _ (Nat.mod_lt _ (by decide))]
    congr 1
    exact decide_eq_decide.mpr ⟨fun e => by omega, fun e => by omega⟩
  · rw [if_neg h, decide_eq_false (by rintro rfl; exact h rfl), Bool.or_false]

/-- SetBit changes no word but the one at p div 64. -/
theorem setBit_read_other (m : Word) (bv : Buckets) (pos : Word) {w : Nat}
    (h : w ≠ bitIndex m pos / 64) : Buckets.read (setBit m bv pos) w = Buckets.read bv w :=
  bucket_write_other _ _ (Ne.symm h)

/-- TestBit reads the bit at pos mod m (40_bitarray.md R114). -/
theorem testBit_eq (m : Word) (bv : Buckets) (pos : Word) :
    testBit m bv pos = bvBit bv (bitIndex m pos) := by
  simp only [testBit, bvBit]
  generalize Buckets.read bv (bitIndex m pos / 64) = x
  generalize bitIndex m pos % 64 = j
  rw [Bool.eq_iff_iff, beq_iff_eq]
  constructor
  · intro h
    have := congrArg (fun v : Word => v.getLsbD 0) h
    simpa using this
  · intro h
    apply BitVec.eq_of_getLsbD_eq
    intro i hi
    simp only [BitVec.getLsbD_and, BitVec.getLsbD_ushiftRight, BitVec.getLsbD_one]
    by_cases hi0 : i = 0
    · subst hi0; simp [h]
    · simp [hi0]

/-- The bits of a store after SetBit at each position of a list. -/
theorem bvBit_foldl_setBit (m : Word) (ps : List Word) (bv : Buckets) (b : Nat) :
    bvBit (ps.foldl (setBit m) bv) b = true ↔
      bvBit bv b = true ∨ ∃ pos ∈ ps, bitIndex m pos = b := by
  induction ps generalizing bv with
  | nil => simp
  | cons p ps ih =>
    simp only [List.foldl_cons, ih, bvBit_setBit, Bool.or_eq_true, decide_eq_true_eq,
      List.mem_cons, exists_eq_or_imp]
    constructor
    · rintro ((h | h) | h)
      · exact .inl h
      · exact .inr (.inl h.symm)
      · exact .inr (.inr h)
    · rintro (h | h | h)
      · exact .inl (.inl h)
      · exact .inl (.inr h.symm)
      · exact .inr h

theorem wf_foldl_setBit (m : Word) (ps : List Word) {bv : Buckets} (h : Buckets.wf bv) :
    Buckets.wf (ps.foldl (setBit m) bv) := by
  induction ps generalizing bv with
  | nil => exact h
  | cons p ps ih => exact ih (bucket_wf_write h _ _)

theorem bound_foldl_setBit {m : Word} (hm : m ≠ 0) (ps : List Word) {bv : Buckets} {n : Nat}
    (hn : wordCount m ≤ n) (h : ∀ c ∈ bv, c.1 < n) :
    ∀ c ∈ ps.foldl (setBit m) bv, c.1 < n := by
  induction ps generalizing bv with
  | nil => exact h
  | cons p ps ih =>
    exact ih (bucket_bound_write h
      (Nat.lt_of_lt_of_le (wordCount_le (bitIndex_lt hm p)) hn) _)

/-! ## HashExpander -/

@[simp] theorem length_digest (p : Params) (x : List Byte) : (digest p x).length = 32 := by
  simp [digest]

theorem fullRounds_eq (k : Word) : fullRounds k = k.toNat / 4 := by
  simp [fullRounds, Nat.shiftRight_eq_div_pow]

theorem partialChunks_eq (k : Word) : partialChunks k = k.toNat % 4 := by
  simp only [partialChunks, BitVec.toNat_and]
  exact Nat.and_two_pow_sub_one_eq_mod k.toNat 2

@[simp] theorem length_chunks (d : List Byte) (n : Nat) : (chunks d n).length = n := by
  simp [chunks]

theorem getElem?_chunks (d : List Byte) {n c : Nat} (h : c < n) :
    (chunks d n)[c]? = some (chunk d c) := by
  simp [chunks, h]

/-- Element 4r + c of the full rounds is chunk c of round r. -/
theorem getElem?_rounds (g : Nat → List Byte) (n j : Nat) (h : j < 4 * n) :
    ((List.range n).flatMap fun r => chunks (g r) 4)[j]? = some (chunk (g (j / 4)) (j % 4)) := by
  induction n with
  | zero => omega
  | succ n ih =>
    have len : ((List.range n).flatMap fun r => chunks (g r) 4).length = 4 * n := by
      simp [List.length_flatMap, Nat.mul_comm]
    rw [List.range_succ, List.flatMap_append]
    by_cases hj : j < 4 * n
    · rw [List.getElem?_append_left (by omega), ih hj]
    · rw [List.getElem?_append_right (by omega), len]
      simp only [List.flatMap_cons, List.flatMap_nil, List.append_nil]
      rw [getElem?_chunks _ (by omega), show j / 4 = n by omega, show j - 4 * n = j % 4 by omega]

@[simp] theorem length_digestPairs : ∀ d : List Byte, (digestPairs d).length = d.length / 2
  | [] => rfl
  | [_] => by simp [digestPairs]
  | _ :: _ :: d => by
    simp only [digestPairs, List.length_cons, length_digestPairs d]; omega

/-- Pair j of a digest is made of its bytes 2j and 2j + 1 (41_hash_expander.md R138). -/
theorem getElem?_digestPairs : ∀ (d : List Byte) (j : Nat) (b c : Byte),
    d[2 * j]? = some b → d[2 * j + 1]? = some c →
    (digestPairs d)[j]? = some ⟨b, (c &&& 7#8).truncate 3⟩
  | [], j, b, c, h, _ => by simp at h
  | [x], j, b, c, _, h => by simp at h
  | x :: y :: d, 0, b, c, h1, h2 => by
    simp only [Nat.mul_zero, List.getElem?_cons_zero, Option.some.injEq, Nat.zero_add,
      List.getElem?_cons_succ] at h1 h2
    simp [digestPairs, h1, h2]
  | x :: y :: d, j + 1, b, c, h1, h2 => by
    rw [show 2 * (j + 1) = 2 * j + 1 + 1 by omega, List.getElem?_cons_succ,
      List.getElem?_cons_succ] at h1
    rw [show 2 * (j + 1) + 1 = 2 * j + 1 + 1 + 1 by omega, List.getElem?_cons_succ,
      List.getElem?_cons_succ] at h2
    rw [digestPairs, List.getElem?_cons_succ]
    exact getElem?_digestPairs d j b c h1 h2

/-! ## FixedFilter -/

theorem faRead_faWrite (fa : Vector Byte 256) (i j b : Byte) :
    faRead (faWrite fa i b) j = if i = j then b else faRead fa j := by
  unfold faRead faWrite
  rw [Vector.getElem_set]
  by_cases h : i = j
  · simp [h]
  · rw [if_neg h, if_neg (fun e => h (BitVec.eq_of_toNat_eq e))]

/-- Arrays that read alike are equal. -/
theorem fa_ext {a b : Vector Byte 256} (h : ∀ i : Byte, faRead a i = faRead b i) : a = b := by
  apply Vector.ext
  intro i hi
  have := h (BitVec.ofNat 8 i)
  simpa [faRead, Nat.mod_eq_of_lt hi] using this

@[simp] theorem faRead_faZero (i : Byte) : faRead faZero i = 0 := by
  simp [faRead, faZero]

/-- A pair sets its own bit and no other (43_fixed_filter.md R182). -/
theorem faBit_setPair (fa : Vector Byte 256) (q : FixedPair) (i : Byte) (b : Nat) :
    faBit (setPair fa q) i b = true ↔
      faBit fa i b = true ∨ (q.bytePos = i ∧ q.bitPos.toNat = b) := by
  have hq : q.bitPos.toNat < 8 := q.bitPos.isLt
  simp only [faBit, setPair, faRead_faWrite]
  by_cases h : q.bytePos = i
  · subst h
    simp only [if_true, BitVec.getLsbD_or, BitVec.getLsbD_shiftLeft, BitVec.getLsbD_one,
      Bool.or_eq_true, true_and]
    refine or_congr_right ?_
    simp
    omega
  · simp [h]

/-- A pair tests its own bit (43_fixed_filter.md R183). -/
theorem testPair_eq (fa : Vector Byte 256) (q : FixedPair) :
    testPair fa q = faBit fa q.bytePos q.bitPos.toNat := by
  simp only [testPair, faBit]
  generalize faRead fa q.bytePos = x
  generalize q.bitPos.toNat = j
  rw [Bool.eq_iff_iff, beq_iff_eq]
  constructor
  · intro h
    have := congrArg (fun v : Byte => v.getLsbD 0) h
    simpa using this
  · intro h
    apply BitVec.eq_of_getLsbD_eq
    intro i hi
    simp only [BitVec.getLsbD_and, BitVec.getLsbD_ushiftRight, BitVec.getLsbD_one]
    by_cases hi0 : i = 0
    · subst hi0; simp [h]
    · simp [hi0]

/-- The bits of the array after setting each pair of a list. -/
theorem faBit_foldl_setPair (qs : List FixedPair) (fa : Vector Byte 256) (i : Byte) (b : Nat) :
    faBit (qs.foldl setPair fa) i b = true ↔
      faBit fa i b = true ∨ ∃ q ∈ qs, q.bytePos = i ∧ q.bitPos.toNat = b := by
  induction qs generalizing fa with
  | nil => simp
  | cons q qs ih =>
    simp only [List.foldl_cons, ih, faBit_setPair, List.mem_cons, exists_eq_or_imp, or_assoc]

/-- Byte i of an array made of a byte string. -/
theorem faRead_faOfBytes (s : List Byte) (i : Byte) :
    faRead (faOfBytes s) i = s.getD i.toNat 0 := by
  have := i.isLt
  simp [faRead, faOfBytes]

/-- GenTest as a decision over single filter bits. -/
theorem genTest_eq (p : Params) (s : State) (key : List Byte) :
    genTest p s key = decide (∀ pos ∈ genPositions p key s.ctx.k,
      bvBit s.bv (pos.toNat % s.ctx.m.toNat) = true) := by
  unfold genTest
  rw [Bool.eq_iff_iff]
  simp [List.all_eq_true, testBit_eq, bitIndex]

/-- FixedTest as a decision over single array bits. -/
theorem fixedTest_eq (p : Params) (s : State) (key : List Byte) :
    fixedTest p s key = decide (∀ q ∈ fixedPairs p key s.ctx.k,
      faBit s.fa q.bytePos q.bitPos.toNat = true) := by
  unfold fixedTest
  rw [Bool.eq_iff_iff]
  simp [List.all_eq_true, testPair_eq]

end Sys2Proof.Laws
end

