-- ==== Sys2Proof/Laws/Image.lean ====
section
/-! SUPPORT. What the fields of a general image are (20_memory.md R70, R71), and what reading a written image
back gives. -/

namespace Sys2Proof.Laws

open Sys2Proof.Machine

theorem wordCount_eq (m : Word) : wordCount m = (m.toNat + 63) / 64 := rfl

@[simp] theorem length_imagePrefix (c : Ctx) (bv : Buckets) :
    (imagePrefix c bv).length = 24 + 8 * wordCount c.m := by
  simp [imagePrefix]; omega

@[simp] theorem length_generalImage (p : Params) (c : Ctx) (bv : Buckets) :
    (generalImage p c bv).length = imageLength c.m := by
  simp [generalImage, imageLength]

theorem take_generalImage (p : Params) (c : Ctx) (bv : Buckets) :
    (generalImage p c bv).take (24 + 8 * wordCount c.m) = imagePrefix c bv := by
  rw [generalImage, ← length_imagePrefix c bv, List.take_left]

theorem drop_generalImage (p : Params) (c : Ctx) (bv : Buckets) :
    (generalImage p c bv).drop (24 + 8 * wordCount c.m) = digest p (imagePrefix c bv) := by
  rw [generalImage, ← length_imagePrefix c bv, List.drop_left]

/-- The prefix as m, k, n and then the words, for slicing. -/
theorem slice_imagePrefix_m (c : Ctx) (bv : Buckets) : slice (imagePrefix c bv) 0 8 = be8 c.m := by
  simp only [imagePrefix, List.append_assoc]
  rw [slice_append_left (by simp)]
  have := slice_zero (be8 c.m)
  rwa [length_be8] at this

theorem slice_imagePrefix_k (c : Ctx) (bv : Buckets) : slice (imagePrefix c bv) 8 8 = be8 c.k := by
  simp only [imagePrefix, List.append_assoc]
  rw [slice_append_right (by simp), length_be8, slice_append_left (by simp)]
  have := slice_zero (be8 c.k)
  rwa [length_be8] at this

theorem slice_imagePrefix_n (c : Ctx) (bv : Buckets) :
    slice (imagePrefix c bv) 16 8 = be8 c.n := by
  simp only [imagePrefix, List.append_assoc]
  rw [slice_append_right (by simp), length_be8, slice_append_right (by simp), length_be8,
    slice_append_left (by simp)]
  have := slice_zero (be8 c.n)
  rwa [length_be8] at this

theorem slice_imagePrefix_word (c : Ctx) (bv : Buckets) {w : Nat} (h : w < wordCount c.m) :
    slice (imagePrefix c bv) (24 + 8 * w) 8 = be8 (Buckets.read bv w) := by
  have hl : (be8 c.m ++ be8 c.k ++ be8 c.n).length = 24 := by simp
  rw [imagePrefix, slice_append_right (by rw [hl]; omega), hl,
    show 24 + 8 * w - 24 = 8 * w by omega,
    slice_flatMap_be8 _ (by simpa using h)]
  simp [Buckets.words]

/-- A field of the prefix is the same field of any string that starts with the prefix. -/
theorem slice_of_prefix {pre b : List Byte} {i n : Nat} (h : b.take pre.length = pre)
    (hi : i + n ≤ pre.length) : slice b i n = slice pre i n := by
  conv_lhs => rw [← List.take_append_drop pre.length b, h]
  exact slice_append_left hi

/-- The header and the words of a string that starts with an image's prefix. -/
theorem image_fields {c : Ctx} {bv : Buckets} {b : List Byte}
    (h : b.take (24 + 8 * wordCount c.m) = imagePrefix c bv) :
    imageM b = c.m ∧ imageK b = c.k ∧ imageN b = c.n ∧
      imageWords b (wordCount c.m) = Buckets.words bv (wordCount c.m) := by
  have h' : b.take (imagePrefix c bv).length = imagePrefix c bv := by
    rwa [length_imagePrefix]
  have hl := length_imagePrefix c bv
  refine ⟨?_, ?_, ?_, ?_⟩
  · rw [imageM, slice_of_prefix h' (by omega), slice_imagePrefix_m, be64dec_be8]
  · rw [imageK, slice_of_prefix h' (by omega), slice_imagePrefix_k, be64dec_be8]
  · rw [imageN, slice_of_prefix h' (by omega), slice_imagePrefix_n, be64dec_be8]
  · refine List.map_congr_left fun w hw => ?_
    rw [List.mem_range] at hw
    rw [imageWord, slice_of_prefix h' (by omega), slice_imagePrefix_word _ _ hw, be64dec_be8]

/-- The words an image loads, read back. -/
theorem load_imageWords_read (bv : Buckets) (b : List Byte) (n w : Nat) :
    Buckets.read (Buckets.load bv 0 (imageWords b n)) w =
      if w < n then imageWord b w else Buckets.read bv w := by
  rw [bucket_load_read, if_pos (by omega), Nat.sub_zero]
  by_cases h : w < n
  · rw [if_pos h, List.getElem?_eq_getElem (by simpa [imageWords] using h)]; simp [imageWords]
  · rw [if_neg h, List.getElem?_eq_none (by simpa [imageWords] using h), Option.getD_none]

/-- An image that loads, by its parts (44_codec.md R203). -/
theorem imageError_none_iff (p : Params) (b : List Byte) (l : Nat) :
    imageError p b l = none ↔
      56 ≤ l ∧ digest p (b.take (l - 32)) = b.drop (l - 32) ∧
        8 * wordCount (imageM b) ≤ l - 56 ∧ (imageM b).toNat ≤ p.mMax := by
  unfold imageError
  split
  · exact ⟨fun h => by simp at h, fun h => by omega⟩
  · split
    · next hne => exact ⟨fun h => by simp at h, fun h => absurd h.2.1 hne⟩
    · next heq =>
      rw [Decidable.not_not] at heq
      split
      · exact ⟨fun h => by simp at h, fun h => by omega⟩
      · split
        · exact ⟨fun h => by simp at h, fun h => by omega⟩
        · split
          · exact ⟨fun h => by simp at h, fun h => by omega⟩
          · exact ⟨fun _ => ⟨by omega, heq, by omega, by omega⟩, fun _ => rfl⟩

/-- An image error is one of the three codes of DESERIALIZE (60_exceptions.md R245). -/
theorem imageError_some {p : Params} {b : List Byte} {l : Nat} {e : ErrorCode}
    (h : imageError p b l = some e) :
    e = .truncatedData ∨ e = .hashMismatch ∨ e = .capacityExceeded := by
  unfold imageError at h
  repeat' split at h
  all_goals simp_all

/-- The image of the live filter and its length, mode by mode. -/
theorem liveLength_gen {s : State} (h : s.ctx.mode = .gen) :
    liveLength s = imageLength s.ctx.m := by simp [liveLength, h]

theorem liveLength_fix {s : State} (h : s.ctx.mode = .fix) : liveLength s = 256 := by
  simp [liveLength, h]

theorem liveImage_gen {p : Params} {s : State} (h : s.ctx.mode = .gen) :
    liveImage p s = generalImage p s.ctx s.bv := by simp [liveImage, h]

theorem liveImage_fix {p : Params} {s : State} (h : s.ctx.mode = .fix) :
    liveImage p s = fixedImage s.fa := by simp [liveImage, h]

theorem length_liveImage (p : Params) (s : State) : (liveImage p s).length = liveLength s := by
  unfold liveImage liveLength
  split
  · rw [length_generalImage]
  · simp [fixedImage]

/-- What DESERIALIZE reads from the region a byte string was written to. -/
theorem image_of_written {s : State} {m : Memory} {a : Nat} {b : List Byte}
    (hb : s.buf = Memory.writeBytes m a b) (ha : s.operands.addr.toNat = a)
    (hl : s.operands.len.toNat = b.length) : s.image = b := by
  unfold State.image State.memRead
  rw [hb, ha, hl, readBytes_writeBytes]

@[simp] theorem length_image (s : State) : s.image.length = s.operands.len.toNat := by
  simp [State.image, State.memRead]

@[simp] theorem length_key (s : State) : s.key.length = s.operands.len.toNat := by
  simp [State.key, State.memRead]

end Sys2Proof.Laws
end

