-- ==== Sys2Proof/Laws/Commands.lean ====
section
/-! SUPPORT. One lemma per command that says once everything it can end in, and what all of them share: a
command always ends in a commit. -/

namespace Sys2Proof.Laws

open Sys2Proof.Machine

/-- How each command ends, by name. -/
def completion (s : State) : Instr → Completion
  | .construct => constructOn Config.params s
  | .constructFixed => constructFixedOn s
  | .add => addOn Config.params s
  | .test => testOn Config.params s
  | .serialize => serializeOn Config.params s
  | .deserialize => deserializeOn Config.params s
  | .loadFixed => loadFixedOn Config.params s
  | .setbit => setbitOn s
  | .testbit => testbitOn s
  | .discard => discardOn s

/-- Every command ends in the commit of its completion (60_exceptions.md R240). -/
theorem exec_eq (i : Instr) (s : State) : exec i s = .next (commit (completion s i) s) := by
  cases i <;> rfl

theorem exec_next {i : Instr} {s t : State} (h : exec i s = .next t) :
    t = commit (completion s i) s := by
  rw [exec_eq] at h; exact (Host.Outcome.next.inj h).symm

/-- A command sees nothing but its operands, what it may write, and the draw of its step: not the operand
registers, not STATUS, not IRQ_EN, not the agenda. -/
theorem completion_congr {s t : State} (hs : s.staged = t.staged) (hd : s.draws = t.draws)
    (ho : s.operands = t.operands) (i : Instr) : completion s i = completion t i := by
  have hc : s.ctx = t.ctx := congrArg Staged.ctx hs
  have hb : s.bv = t.bv := congrArg Staged.bv hs
  have hf : s.fa = t.fa := congrArg Staged.fa hs
  have hm : s.buf = t.buf := congrArg Staged.buf hs
  have hl : liveLength s = liveLength t := by unfold liveLength; rw [hc]
  have hi : liveImage Config.params s = liveImage Config.params t := by
    unfold liveImage; rw [hc, hb, hf]
  cases i <;>
    simp only [completion, constructOn, constructFixedOn, fixedChecks, addOn, testOn, keyChecks,
      serializeOn, deserializeOn, loadFixedOn, setbitOn, testbitOn, bitChecks, discardOn, raise,
      succeed, answer, loadImage, State.key, State.image, State.memRead, genAdd, genTest, fixedAdd,
      fixedTest, hl, hi, hs, hd, ho, hc, hb, hf, hm]

theorem commit_raise_ended (s : State) (e : ErrorCode) : commit (raise s e) s = s.ended e false :=
  commit_raise s e

theorem commit_succeed_ended (s : State) (w : Staged) :
    commit (succeed w) s = (s.apply w).ended .ok false :=
  commit_succeed s w

theorem commit_answer_ended (s : State) (r : Bool) : commit (answer s r) s = s.ended .ok r :=
  commit_answer s r

/-- What SETBIT and TESTBIT end in: an error, or their act in GEN mode with m > 0. -/
theorem bitChecks_cases (s : State) (act : Completion) :
    (∃ e, bitChecks s act = raise s e ∧ e ∈ [ErrorCode.noFilter, .wrongMode, .zeroCapacity]) ∨
    (bitChecks s act = act ∧ s.ctx.mode = .gen ∧ s.ctx.m ≠ 0) := by
  unfold bitChecks
  split
  · exact .inl ⟨_, rfl, by simp⟩
  · split
    · exact .inl ⟨_, rfl, by simp⟩
    · split
      · exact .inl ⟨_, rfl, by simp⟩
      · refine .inr ⟨rfl, ?_, by assumption⟩
        cases h : s.ctx.mode <;> simp_all

/-- What ADD and TEST end in. -/
theorem keyChecks_cases (p : Params) (s : State) (empty gen fix : Completion) :
    (∃ e, keyChecks p s empty gen fix = raise s e ∧
      e ∈ [ErrorCode.noFilter, .bufferRange, .zeroCapacity]) ∨
    (keyChecks p s empty gen fix = empty ∧ s.ctx.mode ≠ .none ∧ s.operands.len = 0) ∨
    (keyChecks p s empty gen fix = gen ∧ s.ctx.mode = .gen ∧ s.operands.len ≠ 0 ∧
      inBuf p s.operands.addr.toNat s.operands.len.toNat ∧ s.ctx.m ≠ 0) ∨
    (keyChecks p s empty gen fix = fix ∧ s.ctx.mode = .fix ∧ s.operands.len ≠ 0 ∧
      inBuf p s.operands.addr.toNat s.operands.len.toNat) := by
  unfold keyChecks
  split
  · exact .inl ⟨_, rfl, by simp⟩
  · split
    · exact .inr (.inl ⟨rfl, by assumption, by assumption⟩)
    · split
      · exact .inl ⟨_, rfl, by simp⟩
      · next hr =>
        rw [Decidable.not_not] at hr
        split
        · split
          · exact .inl ⟨_, rfl, by simp⟩
          · exact .inr (.inr (.inl ⟨rfl, by assumption, by assumption, hr, by assumption⟩))
        · refine .inr (.inr (.inr ⟨rfl, ?_, by assumption, hr⟩))
          cases h : s.ctx.mode <;> simp_all

/-- What CONSTRUCT_FIXED and LOAD_FIXED end in, as far as m and k go. -/
theorem fixedChecks_cases (s : State) (act : Completion) :
    (fixedChecks s act = raise s .invalidParameter) ∨
    (fixedChecks s act = act ∧ s.operands.argM = 2048 ∧ s.operands.argK ≠ 0 ∧
      s.operands.argK.toNat ≤ 16) := by
  unfold fixedChecks
  split
  · exact .inl rfl
  · next hm =>
    split
    · exact .inl rfl
    · next hk =>
      rw [not_or, Nat.not_lt] at hk
      exact .inr ⟨rfl, Decidable.not_not.mp hm, hk.1, hk.2⟩

/-- What CONSTRUCT ends in (42_filter_core.md R150). -/
theorem constructOn_cases (p : Params) (s : State) :
    (∃ e, constructOn p s = raise s e ∧ e ∈ [ErrorCode.invalidParameter, .capacityExceeded]) ∨
    (constructOn p s = succeed
        { s.staged with
          ctx := ⟨.gen, s.operands.argM, s.operands.argK, 0⟩
          bv := Buckets.clear s.bv (wordCount s.operands.argM) } ∧
      s.operands.argK ≠ 0 ∧ s.operands.argK.toNat < 256 ∧ s.operands.argM ≠ 0 ∧
      s.operands.argM.toNat ≤ p.mMax) := by
  unfold constructOn
  split
  · exact .inl ⟨_, rfl, by simp⟩
  · next hk =>
    rw [not_or, Nat.not_le] at hk
    split
    · exact .inl ⟨_, rfl, by simp⟩
    · split
      · exact .inl ⟨_, rfl, by simp⟩
      · next hm hc => exact .inr ⟨rfl, hk.1, hk.2, hm, Nat.not_lt.mp hc⟩

/-- What SERIALIZE ends in (44_codec.md R200). -/
theorem serializeOn_cases (p : Params) (s : State) :
    (∃ e, serializeOn p s = raise s e ∧ e ∈ [ErrorCode.noFilter, .bufferRange]) ∨
    (serializeOn p s = succeed
        { s.staged with
          buf := Memory.writeBytes s.buf s.operands.addr.toNat (liveImage p s)
          outLen := BitVec.ofNat 64 (liveLength s) } ∧
      s.ctx.mode ≠ .none ∧ inBuf p s.operands.addr.toNat (liveLength s)) := by
  unfold serializeOn
  split
  · exact .inl ⟨_, rfl, by simp⟩
  · split
    · exact .inl ⟨_, rfl, by simp⟩
    · next hm hr => exact .inr ⟨rfl, hm, Decidable.not_not.mp hr⟩

/-- What DESERIALIZE ends in (44_codec.md R203). -/
theorem deserializeOn_cases (p : Params) (s : State) :
    (∃ e, deserializeOn p s = raise s e ∧
      e ∈ [ErrorCode.bufferRange, .truncatedData, .hashMismatch, .capacityExceeded]) ∨
    (deserializeOn p s = succeed (loadImage s s.image) ∧
      inBuf p s.operands.addr.toNat s.operands.len.toNat ∧
      imageError p s.image s.operands.len.toNat = none) := by
  unfold deserializeOn
  split
  · exact .inl ⟨_, rfl, by simp⟩
  · next hr =>
    rw [Decidable.not_not] at hr
    split
    · next e he =>
      refine .inl ⟨e, rfl, ?_⟩
      rcases imageError_some he with rfl | rfl | rfl <;> simp
    · next he => exact .inr ⟨rfl, hr, he⟩

/-- What LOAD_FIXED ends in (44_codec.md R210). -/
theorem loadFixedOn_cases (p : Params) (s : State) :
    (∃ e, loadFixedOn p s = raise s e ∧
      e ∈ [ErrorCode.invalidParameter, .sizeMismatch, .bufferRange]) ∨
    (loadFixedOn p s = succeed
        { s.staged with
          ctx := ⟨.fix, 2048, s.operands.argK, 0⟩
          fa := faOfBytes (s.memRead 256) } ∧
      s.operands.argM = 2048 ∧ s.operands.argK ≠ 0 ∧ s.operands.argK.toNat ≤ 16 ∧
      s.operands.len = 256 ∧ inBuf p s.operands.addr.toNat 256) := by
  unfold loadFixedOn
  rcases fixedChecks_cases s (if s.operands.len ≠ 256 then raise s .sizeMismatch
    else if ¬ inBuf p s.operands.addr.toNat 256 then raise s .bufferRange
    else succeed { s.staged with
      ctx := ⟨.fix, 2048, s.operands.argK, 0⟩
      fa := faOfBytes (s.memRead 256) }) with h | ⟨h, hm, hk, hk'⟩
  · exact .inl ⟨_, h, by simp⟩
  · rw [h]
    split
    · exact .inl ⟨_, rfl, by simp⟩
    · next hl =>
      split
      · exact .inl ⟨_, rfl, by simp⟩
      · next hr =>
        exact .inr ⟨rfl, hm, hk, hk', Decidable.not_not.mp hl, Decidable.not_not.mp hr⟩

/-- The successful ends of each command: when, the staged writes `w`, the result `r`. -/
def Success (s : State) (w : Staged) (r : Bool) : Instr → Prop
  | .construct => r = false ∧
      w = { s.staged with
        ctx := ⟨.gen, s.operands.argM, s.operands.argK, 0⟩
        bv := Buckets.clear s.bv (wordCount s.operands.argM) } ∧
      s.operands.argK ≠ 0 ∧ s.operands.argK.toNat < 256 ∧ s.operands.argM ≠ 0 ∧
      s.operands.argM.toNat ≤ Config.params.mMax
  | .constructFixed => r = false ∧
      w = { s.staged with ctx := ⟨.fix, 2048, s.operands.argK, 0⟩, fa := faZero } ∧
      s.operands.argM = 2048 ∧ s.operands.argK ≠ 0 ∧ s.operands.argK.toNat ≤ 16
  | .add => r = false ∧
      ((w = s.staged ∧ s.ctx.mode ≠ .none ∧ s.operands.len = 0) ∨
        (w = { s.staged with
            bv := genAdd Config.params s s.key
            ctx := { s.ctx with n := s.ctx.n + 1 } } ∧
          s.ctx.mode = .gen ∧ s.operands.len ≠ 0 ∧
          inBuf Config.params s.operands.addr.toNat s.operands.len.toNat ∧ s.ctx.m ≠ 0) ∨
        (w = { s.staged with fa := fixedAdd Config.params s s.key } ∧
          s.ctx.mode = .fix ∧ s.operands.len ≠ 0 ∧
          inBuf Config.params s.operands.addr.toNat s.operands.len.toNat))
  | .test => w = s.staged ∧
      ((r = false ∧ s.ctx.mode ≠ .none ∧ s.operands.len = 0) ∨
        (r = genTest Config.params s s.key ∧ s.ctx.mode = .gen ∧ s.operands.len ≠ 0 ∧
          inBuf Config.params s.operands.addr.toNat s.operands.len.toNat ∧ s.ctx.m ≠ 0) ∨
        (r = fixedTest Config.params s s.key ∧ s.ctx.mode = .fix ∧ s.operands.len ≠ 0 ∧
          inBuf Config.params s.operands.addr.toNat s.operands.len.toNat))
  | .serialize => r = false ∧
      w = { s.staged with
        buf := Memory.writeBytes s.buf s.operands.addr.toNat (liveImage Config.params s)
        outLen := BitVec.ofNat 64 (liveLength s) } ∧
      s.ctx.mode ≠ .none ∧ inBuf Config.params s.operands.addr.toNat (liveLength s)
  | .deserialize => r = false ∧ w = loadImage s s.image ∧
      inBuf Config.params s.operands.addr.toNat s.operands.len.toNat ∧
      imageError Config.params s.image s.operands.len.toNat = none
  | .loadFixed => r = false ∧
      w = { s.staged with
        ctx := ⟨.fix, 2048, s.operands.argK, 0⟩
        fa := faOfBytes (s.memRead 256) } ∧
      s.operands.argM = 2048 ∧ s.operands.argK ≠ 0 ∧ s.operands.argK.toNat ≤ 16 ∧
      s.operands.len = 256 ∧ inBuf Config.params s.operands.addr.toNat 256
  | .setbit => r = false ∧
      w = { s.staged with bv := setBit s.ctx.m s.bv s.operands.argPos } ∧
      s.ctx.mode = .gen ∧ s.ctx.m ≠ 0
  | .testbit => w = s.staged ∧ r = testBit s.ctx.m s.bv s.operands.argPos ∧
      s.ctx.mode = .gen ∧ s.ctx.m ≠ 0
  | .discard => r = false ∧ w = { s.staged with ctx := ⟨.none, 0, 0, 0⟩ }

/-- Every completion is an error of the command's own, or one of its successful ends. -/
theorem completion_cases (s : State) (i : Instr) :
    (∃ e, completion s i = raise s e ∧ e ≠ .ok ∧ i ∈ e.raisedBy) ∨
    (∃ w r, completion s i = ⟨.ok, r, w⟩ ∧ Success s w r i) := by
  cases i with
  | construct =>
    rcases constructOn_cases Config.params s with ⟨e, h, he⟩ | ⟨h, hs⟩
    · simp only [List.mem_cons, List.not_mem_nil, or_false] at he
      exact .inl ⟨e, h, by rcases he with rfl | rfl <;> decide,
        by rcases he with rfl | rfl <;> decide⟩
    · exact .inr ⟨_, _, h, rfl, rfl, hs⟩
  | constructFixed =>
    rcases fixedChecks_cases s _ with h | ⟨h, hs⟩
    · exact .inl ⟨_, h, by decide, by decide⟩
    · exact .inr ⟨_, _, h, rfl, rfl, hs⟩
  | add =>
    rcases keyChecks_cases Config.params s _ _ _ with ⟨e, h, he⟩ | ⟨h, hs⟩ | ⟨h, hs⟩ | ⟨h, hs⟩
    · simp only [List.mem_cons, List.not_mem_nil, or_false] at he
      exact .inl ⟨e, h, by rcases he with rfl | rfl | rfl <;> decide,
        by rcases he with rfl | rfl | rfl <;> decide⟩
    · exact .inr ⟨_, _, h, rfl, .inl ⟨rfl, hs⟩⟩
    · exact .inr ⟨_, _, h, rfl, .inr (.inl ⟨rfl, hs⟩)⟩
    · exact .inr ⟨_, _, h, rfl, .inr (.inr ⟨rfl, hs⟩)⟩
  | test =>
    rcases keyChecks_cases Config.params s _ _ _ with ⟨e, h, he⟩ | ⟨h, hs⟩ | ⟨h, hs⟩ | ⟨h, hs⟩
    · simp only [List.mem_cons, List.not_mem_nil, or_false] at he
      exact .inl ⟨e, h, by rcases he with rfl | rfl | rfl <;> decide,
        by rcases he with rfl | rfl | rfl <;> decide⟩
    · exact .inr ⟨_, _, h, rfl, .inl ⟨rfl, hs⟩⟩
    · exact .inr ⟨_, _, h, rfl, .inr (.inl ⟨rfl, hs⟩)⟩
    · exact .inr ⟨_, _, h, rfl, .inr (.inr ⟨rfl, hs⟩)⟩
  | serialize =>
    rcases serializeOn_cases Config.params s with ⟨e, h, he⟩ | ⟨h, hs⟩
    · simp only [List.mem_cons, List.not_mem_nil, or_false] at he
      exact .inl ⟨e, h, by rcases he with rfl | rfl <;> decide,
        by rcases he with rfl | rfl <;> decide⟩
    · exact .inr ⟨_, _, h, rfl, rfl, hs⟩
  | deserialize =>
    rcases deserializeOn_cases Config.params s with ⟨e, h, he⟩ | ⟨h, hs⟩
    · simp only [List.mem_cons, List.not_mem_nil, or_false] at he
      exact .inl ⟨e, h, by rcases he with rfl | rfl | rfl | rfl <;> decide,
        by rcases he with rfl | rfl | rfl | rfl <;> decide⟩
    · exact .inr ⟨_, _, h, rfl, rfl, hs⟩
  | loadFixed =>
    rcases loadFixedOn_cases Config.params s with ⟨e, h, he⟩ | ⟨h, hs⟩
    · simp only [List.mem_cons, List.not_mem_nil, or_false] at he
      exact .inl ⟨e, h, by rcases he with rfl | rfl | rfl <;> decide,
        by rcases he with rfl | rfl | rfl <;> decide⟩
    · exact .inr ⟨_, _, h, rfl, rfl, hs⟩
  | setbit =>
    rcases bitChecks_cases s _ with ⟨e, h, he⟩ | ⟨h, hs⟩
    · simp only [List.mem_cons, List.not_mem_nil, or_false] at he
      exact .inl ⟨e, h, by rcases he with rfl | rfl | rfl <;> decide,
        by rcases he with rfl | rfl | rfl <;> decide⟩
    · exact .inr ⟨_, _, h, rfl, rfl, hs⟩
  | testbit =>
    rcases bitChecks_cases s _ with ⟨e, h, he⟩ | ⟨h, hs⟩
    · simp only [List.mem_cons, List.not_mem_nil, or_false] at he
      exact .inl ⟨e, h, by rcases he with rfl | rfl | rfl <;> decide,
        by rcases he with rfl | rfl | rfl <;> decide⟩
    · exact .inr ⟨_, _, h, rfl, rfl, hs⟩
  | discard => exact .inr ⟨_, _, rfl, rfl, rfl⟩

/-- What a command does: an error that changes STATUS alone, or a successful end. -/
theorem exec_cases {i : Instr} {s t : State} (h : exec i s = .next t) :
    (∃ e, t = s.ended e false ∧ e ≠ .ok ∧ i ∈ e.raisedBy) ∨
    (∃ w r, t = (s.apply w).ended .ok r ∧ Success s w r i) := by
  have ht := exec_next h
  rcases completion_cases s i with ⟨e, hc, he⟩ | ⟨w, r, hc, hs⟩
  · exact .inl ⟨e, by rw [ht, hc, commit_raise_ended], he⟩
  · refine .inr ⟨w, r, ?_, hs⟩
    rw [ht, hc]
    simp [commit, Completion.applied, State.ended]

/-- An `exec` whose completion is known: an error, a success, an answer. -/
theorem exec_raise {i : Instr} {s : State} {e : ErrorCode} (h : completion s i = raise s e) :
    exec i s = .next (s.ended e false) := by
  rw [exec_eq, h, commit_raise_ended]

theorem exec_succeed {i : Instr} {s : State} {w : Staged} (h : completion s i = succeed w) :
    exec i s = .next ((s.apply w).ended .ok false) := by
  rw [exec_eq, h, commit_succeed_ended]

theorem exec_answer {i : Instr} {s : State} {r : Bool} (h : completion s i = answer s r) :
    exec i s = .next (s.ended .ok r) := by
  rw [exec_eq, h, commit_answer_ended]

end Sys2Proof.Laws
end

