-- ==== Sys2Proof/Laws/Config.lean ====
section
/-! SUPPORT. The bounds every part's parameters meet (00_scope.md R8), so that no proof unfolds them. -/

namespace Sys2Proof.Laws

open Sys2Proof.Machine

theorem mMax_ge (p : Params) : 4096 ≤ p.mMax := by unfold Params.mMax; omega

theorem mMax_le (p : Params) : p.mMax ≤ 2 ^ 64 - 64 := by
  have := p.extraWords.isLt
  unfold Params.mMax; omega

theorem mMax_mod (p : Params) : p.mMax % 64 = 0 := by unfold Params.mMax; omega

theorem bufBytes_ge (p : Params) : 56 + p.mMax / 8 ≤ p.bufBytes := by
  have := mMax_le p
  unfold Params.bufBytes Params.bufLeast; omega

theorem bufBytes_ge_568 (p : Params) : 568 ≤ p.bufBytes := by
  have := mMax_ge p
  have := bufBytes_ge p
  omega

theorem bufBytes_lt (p : Params) : p.bufBytes < 2 ^ 64 := by unfold Params.bufBytes; omega

/-- The words of a filter that a part admits lie in its bucket store. -/
theorem wordCount_le_bucketWords {p : Params} {m : Word} (h : m.toNat ≤ p.mMax) :
    wordCount m ≤ p.bucketWords := by
  unfold wordCount Params.bucketWords Params.mMax at *; omega

/-- In GEN mode a context is legal exactly when its capacity is. -/
theorem legal_gen {p : Params} {c : Ctx} (h : c.mode = .gen) : c.legal p ↔ c.m.toNat ≤ p.mMax := by
  unfold Ctx.legal; rw [h]

end Sys2Proof.Laws
end

