-- ==== Sys2Proof/Laws/Decode.lean ====
section
/-! SUPPORT. The laws of command words: fields of a word, and every command's word is well formed. -/

namespace Sys2Proof.Laws

/-- Every command is well formed: it has no operand field that could be out of range. -/
theorem wellFormed_all (i : Instr) : i.wellFormed = true := by cases i <;> decide

/-- A word is its two fields (30_encoding.md R90). -/
theorem toWord_ofWord (w : Word) : (CommandWord.ofWord w).toWord = w := by
  unfold CommandWord.ofWord CommandWord.toWord
  apply BitVec.eq_of_getLsbD_eq
  intro i hi
  rw [BitVec.getLsbD_append]
  by_cases h : i < 8
  · simp [h]
  · simp [h]; rw [show 8 + (i - 8) = i by omega, decide_eq_true (by omega), Bool.true_and]

theorem ofWord_toWord (c : CommandWord) : CommandWord.ofWord c.toWord = c := by
  obtain ⟨r, o⟩ := c
  unfold CommandWord.ofWord CommandWord.toWord
  simp only [CommandWord.mk.injEq]
  constructor <;>
  · apply BitVec.eq_of_getLsbD_eq
    intro i hi
    rw [BitVec.getLsbD_extractLsb', BitVec.getLsbD_append]
    simp [hi]
    try omega

/-- The opcodes of 30_encoding.md R92 and no others have a command. -/
theorem decodeOpcode_ok {o : BitVec 8} {i : Instr} : decodeOpcode o = .ok i ↔ o = i.opcode := by
  constructor
  · intro h
    unfold decodeOpcode at h
    split at h <;>
      first
        | (cases h; apply BitVec.eq_of_toNat_eq; assumption)
        | simp at h
  · rintro rfl; cases i <;> rfl

/-- 30_encoding.md R93 (1). -/
theorem decode_of_reserved {w : Word} (h : (CommandWord.ofWord w).rsvd ≠ 0) :
    decode w = .error .reservedBits := if_pos h

/-- 30_encoding.md R93 (2), (3). -/
theorem decode_of_zero {w : Word} (h : (CommandWord.ofWord w).rsvd = 0) :
    decode w = decodeOpcode (CommandWord.ofWord w).opc := if_neg (not_not_intro h)

end Sys2Proof.Laws
end

