-- ==== Sys2Proof/Laws/PerInstr.lean ====
section
/-! SUPPORT. The statements made per command: the word of each one, its fields, and its decoding. -/

/-- The command word of a command: well formed, RSVD zero, OPC its opcode, and read back by the decoder. -/
def Sys2Proof.Laws.CommandWordOf.Statement (i : Sys2Proof.Instr) : Prop :=
  i.wellFormed = true ∧ (Sys2Proof.encode i).extractLsb' 8 56 = 0 ∧
    (Sys2Proof.encode i).extractLsb' 0 8 = i.opcode ∧
    Sys2Proof.decode (Sys2Proof.encode i) = .ok i

namespace Sys2Proof.Laws.CommandWordOf

theorem construct : Statement .construct := ⟨rfl, rfl, rfl, rfl⟩
theorem constructFixed : Statement .constructFixed := ⟨rfl, rfl, rfl, rfl⟩
theorem add : Statement .add := ⟨rfl, rfl, rfl, rfl⟩
theorem test : Statement .test := ⟨rfl, rfl, rfl, rfl⟩
theorem serialize : Statement .serialize := ⟨rfl, rfl, rfl, rfl⟩
theorem deserialize : Statement .deserialize := ⟨rfl, rfl, rfl, rfl⟩
theorem loadFixed : Statement .loadFixed := ⟨rfl, rfl, rfl, rfl⟩
theorem setbit : Statement .setbit := ⟨rfl, rfl, rfl, rfl⟩
theorem testbit : Statement .testbit := ⟨rfl, rfl, rfl, rfl⟩
theorem discard : Statement .discard := ⟨rfl, rfl, rfl, rfl⟩

end Sys2Proof.Laws.CommandWordOf
end

