-- ==== Sys2Proof/Laws/Step.lean ====
section
/-! SUPPORT. What one step can do: one inversion lemma for the step and one for a host access. -/

namespace Sys2Proof.Laws

open Sys2Proof.Machine

/-- The engine's turn: idle, a command, or an illegal word. -/
theorem engineTurn_next {s t : State} (h : engineTurn exec s = .next t) :
    (s.inFlight = none ∧ t = s) ∨
    (∃ f i, s.inFlight = some f ∧ decode f.word = .ok i ∧ t = commit (completion s i) s) ∨
    (∃ f r, s.inFlight = some f ∧ decode f.word = .error r ∧ t = s.ended .illegalCommand false) := by
  unfold engineTurn at h
  cases hf : s.inFlight with
  | none => rw [hf] at h; exact .inl ⟨rfl, (Host.Outcome.next.inj h).symm⟩
  | some f =>
    rw [hf] at h
    simp only at h
    cases hd : decode f.word with
    | ok i => rw [hd] at h; exact .inr (.inl ⟨f, i, rfl, hd, exec_next h⟩)
    | error r =>
      rw [hd] at h
      exact .inr (.inr ⟨f, r, rfl, hd, by
        rw [← commit_raise_ended]; exact (Host.Outcome.next.inj h).symm⟩)

/-- The host address map, window by window (20_memory.md R61). -/
theorem window_register {p : Params} {a : Nat} (h : a < 0x1000) : window p a = .register a := by
  simp [window, h]

theorem window_buffer {p : Params} {i : Nat} (h : i < p.bufBytes) :
    window p (0x10000 + i) = .buffer i := by
  unfold window
  rw [if_neg (by omega), if_pos (by omega), Nat.add_sub_cancel_left]

theorem window_unmapped {p : Params} {a : Nat} (h : 0x1000 ≤ a)
    (h' : a < 0x10000 ∨ 0x10000 + p.bufBytes ≤ a) : window p a = .unmapped := by
  unfold window
  rw [if_neg (by omega), if_neg (by omega)]

theorem window_cases (p : Params) (a : Nat) :
    (a < 0x1000 ∧ window p a = .register a) ∨
    (∃ i, a = 0x10000 + i ∧ i < p.bufBytes ∧ window p a = .buffer i) ∨
    (0x1000 ≤ a ∧ (a < 0x10000 ∨ 0x10000 + p.bufBytes ≤ a) ∧ window p a = .unmapped) := by
  by_cases h : a < 0x1000
  · exact .inl ⟨h, window_register h⟩
  · by_cases h' : 0x10000 ≤ a ∧ a < 0x10000 + p.bufBytes
    · obtain ⟨i, rfl⟩ := Nat.exists_eq_add_of_le h'.1
      exact .inr (.inl ⟨i, rfl, by omega, window_buffer (by omega)⟩)
    · exact .inr (.inr ⟨by omega, by omega, window_unmapped (by omega) (by omega)⟩)

theorem wordAccess_next {p : Params} {a : Nat} {act : Nat → State} {t : State}
    (h : wordAccess p a act = .next t) : a < 0x1000 ∧ a % 8 = 0 ∧ t = act a := by
  unfold wordAccess at h
  rcases window_cases p a with ⟨ha, hw⟩ | ⟨i, _, _, hw⟩ | ⟨_, _, hw⟩ <;> simp only [hw] at h
  · split at h
    · exact ⟨ha, by assumption, (Host.Outcome.next.inj h).symm⟩
    · cases h
  · cases h
  · cases h

theorem byteAccess_next {p : Params} {a : Nat} {act : Nat → State} {t : State}
    (h : byteAccess p a act = .next t) :
    ∃ i, a = 0x10000 + i ∧ i < p.bufBytes ∧ t = act i := by
  unfold byteAccess at h
  rcases window_cases p a with ⟨_, hw⟩ | ⟨i, ha, hi, hw⟩ | ⟨_, _, hw⟩ <;> simp only [hw] at h
  · cases h
  · exact ⟨i, ha, hi, (Host.Outcome.next.inj h).symm⟩
  · cases h

/-- A host access that has a step: which one it is and what it does. -/
theorem hostAccess_next {p : Params} {s t : State} {a : Access} (h : hostAccess p s a = .next t) :
    (∃ off v, a = .w64 off v ∧ off < 0x1000 ∧ off % 8 = 0 ∧ t = s.writeOffset off v) ∨
    (∃ off, a = .r64 off ∧ off < 0x1000 ∧ off % 8 = 0 ∧ t = s.saw (.word (s.readOffset p off))) ∨
    (∃ i b, a = .w8 (0x10000 + i) b ∧ i < p.bufBytes ∧ t = s.writeByte i b) ∨
    (∃ i, a = .r8 (0x10000 + i) ∧ i < p.bufBytes ∧ t = s.saw (.byte (s.readByte i))) := by
  cases a with
  | w64 a v => exact .inl ⟨a, v, rfl, wordAccess_next h⟩
  | r64 a => exact .inr (.inl ⟨a, rfl, wordAccess_next h⟩)
  | w8 a b =>
    obtain ⟨i, rfl, hi⟩ := byteAccess_next h
    exact .inr (.inr (.inl ⟨i, b, rfl, hi⟩))
  | r8 a =>
    obtain ⟨i, rfl, hi⟩ := byteAccess_next h
    exact .inr (.inr (.inr ⟨i, rfl, hi⟩))
  | otherWidth a =>
    simp only [hostAccess] at h
    rcases window_cases p a with ⟨_, hw⟩ | ⟨_, _, _, hw⟩ | ⟨_, _, hw⟩ <;> rw [hw] at h <;> cases h

/-- What a host register write can do: nothing, issue, set AWB, write STATUS or IRQ_EN, or an operand. -/
theorem writeOffset_cases (s : State) (off : Nat) (v : Word) :
    s.writeOffset off v = s ∨ s.writeOffset off v = s.lostWrite ∧ s.busy = true ∨
    s.writeOffset off v = s.issue v ∧ s.busy = false ∨
    (∃ d a, s.writeOffset off v = { s with done := s.done && d, awb := s.awb && a }) ∨
    (∃ e, s.writeOffset off v = { s with doneIe := e }) ∨
    (∃ o, s.writeOffset off v = { s with ops := o } ∧ s.busy = false) := by
  unfold State.writeOffset
  cases Reg.ofOffset off with
  | none => exact .inl rfl
  | some r =>
    have idle : ∀ t : State, s.writeIdle t = s.lostWrite ∧ s.busy = true ∨
        s.writeIdle t = t ∧ s.busy = false := fun t => by
      unfold State.writeIdle
      cases s.busy <;> simp
    cases r <;> simp only [State.writeReg]
    case cmd =>
      rcases idle (s.issue v) with h | h
      · exact .inr (.inl h)
      · exact .inr (.inr (.inl h))
    case status =>
      refine .inr (.inr (.inr (.inl ⟨!v.getLsbD 1, !v.getLsbD 3, ?_⟩)))
      unfold State.writeStatus
      cases v.getLsbD 1 <;> cases v.getLsbD 3 <;> simp [State.acknowledge]
    case irqEn => exact .inr (.inr (.inr (.inr (.inl ⟨_, rfl⟩))))
    case argM | argK | argPos | addr | len =>
      rcases idle _ with h | h
      · exact .inr (.inl h)
      · exact .inr (.inr (.inr (.inr (.inr ⟨_, h.1, h.2⟩))))
    all_goals exact .inl trivial

/-- What a step can do: stay idle, the engine's turn, a host access, a poll, or a reset. -/
theorem step_cases {s t : State} (h : step s = .next t) :
    (s.agenda = [] ∧ s.busy = false ∧ t = s) ∨
    (s.engineNext ∧ engineTurn exec s.advance = .next t) ∨
    (∃ a rest, s.agenda = .access a :: rest ∧ hostAccess Config.params s.advance a = .next t) ∨
    (∃ rest, s.agenda = .wait :: rest ∧ t = s.advance.poll) ∨
    (∃ rest, s.agenda = .reset :: rest ∧ t = s.advance.resetLine) := by
  unfold step stepOn at h
  split at h
  · next ha =>
    split at h
    · exact .inr (.inl ⟨.inl ha, h⟩)
    · next hb => exact .inl ⟨ha, by simpa using hb, (Host.Outcome.next.inj h).symm⟩
  · next a rest ha => exact .inr (.inr (.inl ⟨a, rest, ha, h⟩))
  · next rest ha => exact .inr (.inr (.inr (.inl ⟨rest, ha, (Host.Outcome.next.inj h).symm⟩)))
  · next rest ha => exact .inr (.inl ⟨.inr (by rw [ha]; rfl), h⟩)
  · next rest ha => exact .inr (.inr (.inr (.inr ⟨rest, ha, (Host.Outcome.next.inj h).symm⟩)))

/-- The engine's turn comes next: the step is it, or nothing happens on an idle engine. -/
theorem step_of_engineNext {s : State} {f : InFlight} (h : s.engineNext)
    (hf : s.inFlight = some f) : step s = engineTurn exec s.advance := by
  unfold step stepOn
  rcases h with h | h
  · rw [h]; simp [State.busy, hf]
  · cases ha : s.agenda with
    | nil => rw [ha] at h; simp at h
    | cons e rest => rw [ha] at h; simp at h; subst h; rfl

/-- A step that runs a command is its meaning on the advanced state. -/
theorem step_of_runs {s : State} {i : Instr} (h : s.runs i) : step s = exec i s.advance := by
  obtain ⟨he, f, hf, hd⟩ := h
  rw [step_of_engineNext he hf, engineTurn, advance_inFlight, hf]
  simp only [hd]

theorem step_of_access {s : State} {a : Access} {rest : List Event}
    (h : s.agenda = .access a :: rest) : step s = hostAccess Config.params s.advance a := by
  unfold step stepOn; rw [h]

theorem operands_advance (s : State) : s.advance.operands = s.operands := rfl

/-! ## A host access that has a step -/

theorem step_w64 {s : State} {off : Nat} {v : Word} {rest : List Event}
    (h : s.agenda = .access (.w64 off v) :: rest) (ho : off < 0x1000) (h8 : off % 8 = 0) :
    step s = .next (s.advance.writeOffset off v) := by
  rw [step_of_access h]; simp only [hostAccess, wordAccess, window_register ho, h8, if_true]

theorem step_r64 {s : State} {off : Nat} {rest : List Event}
    (h : s.agenda = .access (.r64 off) :: rest) (ho : off < 0x1000) (h8 : off % 8 = 0) :
    step s = .next (s.advance.saw (.word (s.advance.readOffset Config.params off))) := by
  rw [step_of_access h]; simp only [hostAccess, wordAccess, window_register ho, h8, if_true]

theorem step_w8 {s : State} {i : Nat} {b : Byte} {rest : List Event}
    (h : s.agenda = .access (.w8 (0x10000 + i) b) :: rest) (hi : i < Config.params.bufBytes) :
    step s = .next (s.advance.writeByte i b) := by
  rw [step_of_access h]; simp only [hostAccess, byteAccess, window_buffer hi]

theorem step_r8 {s : State} {i : Nat} {rest : List Event}
    (h : s.agenda = .access (.r8 (0x10000 + i)) :: rest) (hi : i < Config.params.bufBytes) :
    step s = .next (s.advance.saw (.byte (s.advance.readByte i))) := by
  rw [step_of_access h]; simp only [hostAccess, byteAccess, window_buffer hi]

theorem advance_of_cons {s : State} {e : Event} {rest : List Event} (h : s.agenda = e :: rest) :
    s.advance = { s with agenda := rest, draws := s.draws + 1 } := by
  simp [State.advance, h]

theorem writeIdle_cases (s t : State) :
    s.writeIdle t = s.lostWrite ∧ s.busy = true ∨ s.writeIdle t = t ∧ s.busy = false := by
  unfold State.writeIdle; cases s.busy <;> simp

theorem writeStatus_eq (s : State) (v : Word) : s.writeStatus v =
    { s with done := s.done && !v.getLsbD 1, awb := s.awb && !v.getLsbD 3 } := by
  unfold State.writeStatus
  cases v.getLsbD 1 <;> cases v.getLsbD 3 <;> simp [State.acknowledge]

/-- An illegal word in flight completes with IllegalCommand (30_encoding.md R93). -/
theorem step_of_illegal {s : State} {f : InFlight} {r : Illegal} (he : s.engineNext)
    (hf : s.inFlight = some f) (hd : decode f.word = .error r) :
    step s = .next (s.advance.ended .illegalCommand false) := by
  rw [step_of_engineNext he hf, engineTurn, advance_inFlight, hf]
  simp only [hd]
  rw [commit_raise_ended]

/-- A command that fails ends its step in a state that differs from the one before in STATUS alone. -/
theorem step_failed {s t : State} {i : Instr} (hr : s.runs i) (h : step s = .next t) (he : t.err ≠ .ok) :
    t = s.advance.ended t.err false := by
  rw [step_of_runs hr] at h
  rcases exec_cases h with ⟨e, rfl, -⟩ | ⟨w, r, rfl, -⟩
  · rfl
  · exact absurd rfl he

/-- What a step does to the context and the stores: nothing, one command, or a reset. -/
theorem step_filter {s t : State} (h : step s = .next t) :
    (t.ctx = s.ctx ∧ t.bv = s.bv ∧ t.fa = s.fa ∧ ∀ i, ¬ s.runs i) ∨
    (∃ i, s.runs i ∧ exec i s.advance = .next t) ∨ s.agenda.head? = some .reset := by
  have norun : ∀ {e rest}, s.agenda = e :: rest → e ≠ .engine → ∀ i, ¬ s.runs i := by
    rintro e rest ha hne i ⟨h | h, -⟩
    · rw [ha] at h; cases h
    · rw [ha] at h; simp at h; exact hne h
  rcases step_cases h with ⟨-, hb, rfl⟩ | ⟨he, ht⟩ | ⟨a, rest, ha, ht⟩ | ⟨rest, ha, rfl⟩ |
    ⟨rest, ha, -⟩
  · refine .inl ⟨rfl, rfl, rfl, ?_⟩
    rintro i ⟨-, f, hf, -⟩
    rw [State.busy, hf] at hb; cases hb
  · rcases engineTurn_next ht with ⟨hn, rfl⟩ | ⟨f, i, hf, hd, rfl⟩ | ⟨f, r, hf, hd, rfl⟩
    · refine .inl ⟨rfl, rfl, rfl, ?_⟩
      rintro i ⟨-, f, hf, -⟩
      rw [advance_inFlight, hf] at hn; cases hn
    · exact .inr (.inl ⟨i, ⟨he, f, hf, hd⟩, exec_eq _ _⟩)
    · refine .inl ⟨rfl, rfl, rfl, ?_⟩
      rintro i ⟨-, g, hg, hgd⟩
      rw [advance_inFlight, hg] at hf
      cases hf
      rw [hgd] at hd; cases hd
  · have nr := norun ha (by simp)
    rcases hostAccess_next ht with ⟨off, v, -, -, -, rfl⟩ | ⟨off, -, -, -, rfl⟩ |
      ⟨i, b, -, -, rfl⟩ | ⟨i, -, -, rfl⟩
    · rcases writeOffset_cases s.advance off v with h | ⟨h, -⟩ | ⟨h, -⟩ | ⟨d, a, h⟩ | ⟨e, h⟩ |
        ⟨o, h, -⟩ <;> rw [h] <;> exact .inl ⟨rfl, rfl, rfl, nr⟩
    · exact .inl ⟨rfl, rfl, rfl, nr⟩
    · unfold State.writeByte
      rcases writeIdle_cases s.advance { s.advance with buf := Memory.write s.advance.buf i b }
        with ⟨h, -⟩ | ⟨h, -⟩ <;> rw [h] <;> exact .inl ⟨rfl, rfl, rfl, nr⟩
    · exact .inl ⟨rfl, rfl, rfl, nr⟩
  · refine .inl ⟨?_, ?_, ?_, norun ha (by simp)⟩ <;>
      (unfold State.poll; dsimp only; split <;> rfl)
  · exact .inr (.inr (by rw [ha]; rfl))

end Sys2Proof.Laws
end

