-- ==== Sys2Proof/Tests/Slice0.lean ====
section
/-! SUPPORT. Tests and witnesses. Expected values come from spec/95_test_vectors.md (each test names its
vector), with that file's own parameters: the stub hash H_X, P_ROUND_WIDTH 8, M_MAX 4096, BUF_BYTES 4096. Each
witness shows states and operands that meet the hypotheses of the statement it names, clause by clause. -/

namespace Sys2Proof.Tests

open Sys2Proof.Machine Sys2Proof.Laws

/-! ## Well-formedness and decoding -/

/-- An ill-formed word for each check: bit 8 set; opcodes outside the table. -/
theorem test_wellFormed_smoke :
    CommandWord.reservedZero ⟨1, 0x03⟩ = false ∧ CommandWord.wellFormed ⟨1, 0x03⟩ = false ∧
    CommandWord.opcodeAssigned ⟨0, 0x0A⟩ = false ∧ CommandWord.wellFormed ⟨0, 0x0A⟩ = false ∧
    CommandWord.opcodeAssigned ⟨0, 0x00⟩ = false ∧ CommandWord.wellFormed ⟨0, 0x0F⟩ = true := by
  decide

/-- 30_encoding.md R92: each row's word, written out; V-ENC-1 and V-ENC-2 among them. -/
theorem test_decode_table :
    decode 0x0000000000000001 = .ok .construct ∧ decode 0x0000000000000002 = .ok .constructFixed ∧
    decode 0x0000000000000003 = .ok .add ∧ decode 0x0000000000000004 = .ok .test ∧
    decode 0x0000000000000005 = .ok .serialize ∧ decode 0x0000000000000006 = .ok .deserialize ∧
    decode 0x0000000000000007 = .ok .loadFixed ∧ decode 0x0000000000000008 = .ok .setbit ∧
    decode 0x0000000000000009 = .ok .testbit ∧ decode 0x000000000000000F = .ok .discard := by decide

/-- V-ENC-3 to V-ENC-9. -/
theorem test_decode_illegal :
    decode 0x0000000000000000 = .error .unassignedOpcode ∧
    decode 0x000000000000000A = .error .unassignedOpcode ∧
    decode 0x000000000000000E = .error .unassignedOpcode ∧
    decode 0x0000000000000010 = .error .unassignedOpcode ∧
    decode 0x00000000000000FF = .error .unassignedOpcode ∧
    decode 0x0000000000000103 = .error .reservedBits ∧
    decode 0x8000000000000004 = .error .reservedBits := by decide

/-- The rows' words as the table numbers their bits. -/
theorem test_decodeTableWord :
    decodeTableWord 64 0x0F = some .discard ∧ decodeTableWord 8 0x03 = some .add ∧
    decodeTableWord 64 0x103 = none := by decide

/-! ## The part of spec/95_test_vectors.md §1 -/

/-- XOR of a byte string into the first bytes of another. -/
def xorInto : List Byte → List Byte → List Byte
  | a :: s, b :: t => (a ^^^ b) :: xorInto s t
  | s, [] => s
  | [], _ => []

/-- XOR of the 32-byte blocks of a string, `fuel` blocks at most. -/
def fold32 : Nat → List Byte → List Byte → List Byte
  | 0, acc, _ => acc
  | n + 1, acc, x => if x.isEmpty then acc else fold32 n (xorInto acc (x.take 32)) (x.drop 32)

/-- H_X. -/
def hashX (x : List Byte) : Vector Byte 32 :=
  ⟨((List.range 32).map fun i =>
    (fold32 (x.length / 32 + 1) (List.replicate 32 0) x).getD i 0).toArray, by simp⟩

/-- The parameters of §1. -/
def part : Params := { hash := hashX, roundWidth := .w8, extraWords := 0, extraBuf := 3528 }

/-- The same with P_ROUND_WIDTH = 1 (V-GP-7). -/
def partRW1 : Params := { part with roundWidth := .w1 }

theorem test_part_sizes : part.mMax = 4096 ∧ part.bufBytes = 4096 := by decide

def keyA : List Byte := [0x01, 0x23, 0x45, 0x67, 0x89, 0xab, 0xcd, 0xef]
def keyB : List Byte := [0xfe, 0xdc, 0xba, 0x98, 0x76, 0x54, 0x32, 0x10]
def key32 : List Byte := (List.range 32).map fun i => BitVec.ofNat 8 (0x10 + i)
def key40 : List Byte := (List.range 40).map fun i => BitVec.ofNat 8 i

/-- A state with operands ADDR and LEN. -/
def withRegion (a l : Word) (s : State) : State := { s with ops := { s.ops with addr := a, len := l } }

/-- A state with operands ARG_M and ARG_K. -/
def withSize (m k : Word) (s : State) : State := { s with ops := { s.ops with argM := m, argK := k } }

/-- A state with operand ARG_POS. -/
def withPos (p : Word) (s : State) : State := { s with ops := { s.ops with argPos := p } }

/-- A state with bytes in BUF. -/
def withBytes (a : Nat) (b : List Byte) (s : State) : State :=
  { s with buf := Memory.writeBytes s.buf a b }

/-- The state after reset with a general filter. -/
def gen (m k n : Word) (bv : Buckets) : State := { State.reset with ctx := ⟨.gen, m, k, n⟩, bv := bv }

/-- The state after reset with an empty fixed filter. -/
def fix (k : Word) : State := { State.reset with ctx := ⟨.fix, 2048, k, 0⟩ }

/-- The state after V-ADD-1, KA at 0 and KB at 8. -/
def stateS0 : State := withBytes 8 keyB (withBytes 0 keyA (gen 500 6 1 [(0, 0x3), (6, 0x800)]))

/-- How a completion ends. -/
def endsWith (c : Completion) (e : ErrorCode) (r : Bool) : Bool := c.code == e && c.result == r

/-! ## The HashExpander -/

/-- V-GP-1: KA, k = 6. -/
theorem test_positions : genPositions part keyA 6 =
    [0x0123456789abcdef, 0, 0, 0, 0x0123456789abcdef, 0x1] := by decide +kernel

/-- V-GP-7: the same with a one-byte round. -/
theorem test_positions_round_width : genPositions partRW1 keyA 6 =
    [0x0123456789abcdef, 0, 0, 0, 0x0123456789abcdef, 0x0100000000000000] := by decide +kernel

/-- V-GP-5 and V-GP-6: keys of 32 and 40 bytes. -/
theorem test_positions_long :
    genPositions part key32 5 = [0x1011121314151617, 0x18191a1b1c1d1e1f, 0x2021222324252627,
      0x28292a2b2c2d2e2f, 0x1011121314151616] ∧
    genPositions part key40 2 = [0x2020202020202020, 0x08090a0b0c0d0e0f] := by decide +kernel

/-- V-FP-1 and V-FP-4. -/
theorem test_pairs :
    fixedPairs part key32 3 = [⟨0x10, 1⟩, ⟨0x12, 3⟩, ⟨0x14, 5⟩] ∧
    fixedPairs part [0xff, 0xff] 3 = [⟨0xff, 7⟩, ⟨0x00, 0⟩, ⟨0x00, 0⟩] := by decide +kernel

/-! ## Commands, at most two tests each -/

/-- V-CON-5: m = 500 clears words 0 to 7 and keeps word 8. -/
theorem test_construct :
    let c := constructOn part (withSize 500 255 (gen 4096 1 9 [(0, 1), (7, 2), (8, 3)]))
    c.code = .ok ∧ c.staged.ctx = ⟨.gen, 500, 255, 0⟩ ∧ c.staged.bv = [(8, 3)] := by decide +kernel

/-- V-CON-8 and V-CON-7: InvalidParameter before CapacityExceeded; 4097 > M_MAX. -/
theorem test_construct_errors :
    endsWith (constructOn part (withSize 5000 256 State.reset)) .invalidParameter false = true ∧
    endsWith (constructOn part (withSize 4097 6 State.reset)) .capacityExceeded false = true := by
  decide +kernel

/-- V-CF-2. -/
theorem test_constructFixed :
    let c := constructFixedOn (withSize 2048 16 stateS0)
    c.code = .ok ∧ c.staged.ctx = ⟨.fix, 2048, 16, 0⟩ ∧ faRead c.staged.fa 0xff = 0 := by
  decide +kernel

/-- V-CF-3 and V-CF-5. -/
theorem test_constructFixed_errors :
    endsWith (constructFixedOn (withSize 2048 17 State.reset)) .invalidParameter false = true ∧
    endsWith (constructFixedOn (withSize 2047 3 State.reset)) .invalidParameter false = true := by
  decide +kernel

/-- V-ADD-1: bits 0, 1 and 395. -/
theorem test_add :
    let c := addOn part (withRegion 0 8 (withBytes 0 keyA (gen 500 6 0 [])))
    c.code = .ok ∧ c.staged.bv = [(0, 0x3), (6, 0x800)] ∧ c.staged.ctx.n = 1 := by decide +kernel

/-- V-FIX-1: bits in FA[0x10], FA[0x12], FA[0x14]; no counter. -/
theorem test_add_fixed :
    let c := addOn part (withRegion 0 32 (withBytes 0 key32 (fix 3)))
    faRead c.staged.fa 0x10 = 0x02 ∧ faRead c.staged.fa 0x12 = 0x08 ∧
      faRead c.staged.fa 0x14 = 0x20 ∧ faRead c.staged.fa 0x11 = 0 ∧ c.staged.ctx.n = 0 := by
  decide +kernel

/-- V-TEST-1 and V-TEST-2. -/
theorem test_test :
    endsWith (testOn part (withRegion 0 8 stateS0)) .ok true = true ∧
    endsWith (testOn part (withRegion 8 8 stateS0)) .ok false = true := by decide +kernel

/-- V-TEST-7 and V-TEST-8: ZeroCapacity, and the empty key before it. -/
theorem test_test_zero_capacity :
    endsWith (testOn part (withRegion 0 8 (gen 0 6 0 []))) .zeroCapacity false = true ∧
    endsWith (testOn part (withRegion 0 0 (gen 0 6 0 []))) .ok false = true := by decide +kernel

/-- The image of V-SER-1. -/
def image1 : List Byte :=
  [0, 0, 0, 0, 0, 0, 0x01, 0xf4] ++ [0, 0, 0, 0, 0, 0, 0, 0x06] ++ [0, 0, 0, 0, 0, 0, 0, 0x01] ++
  [0, 0, 0, 0, 0, 0, 0, 0x03] ++ List.replicate 40 0 ++ [0, 0, 0, 0, 0, 0, 0x08, 0x00] ++
  List.replicate 8 0 ++ [0, 0, 0, 0, 0, 0, 0x01, 0xf4] ++ [0, 0, 0, 0, 0, 0, 0x08, 0x06] ++
  [0, 0, 0, 0, 0, 0, 0, 0x01] ++ [0, 0, 0, 0, 0, 0, 0, 0x03]

/-- V-SER-1: the 120 bytes at 0x100. -/
theorem test_serialize :
    let c := serializeOn part (withRegion 0x100 0 stateS0)
    c.code = .ok ∧ c.staged.outLen = 120 ∧
      Memory.readBytes c.staged.buf 0 0x100 120 = image1 := by decide +kernel

/-- V-SER-2 and V-SER-3: the last place that fits, and one past it. -/
theorem test_serialize_range :
    (serializeOn part (withRegion 3976 0 stateS0)).code = .ok ∧
    endsWith (serializeOn part (withRegion 3977 0 stateS0)) .bufferRange false = true := by
  decide +kernel

/-- V-DES-2: from MODE NONE back to the state of V-ADD-1. -/
theorem test_deserialize :
    let c := deserializeOn part (withRegion 0x100 120 (withBytes 0x100 image1 State.reset))
    c.code = .ok ∧ c.staged.ctx = ⟨.gen, 500, 6, 1⟩ ∧
      c.staged.bv = [(0, 0x3), (6, 0x800)] := by decide +kernel

/-- V-DES-4 and V-DES-12: the checksum before the length; 4160 > M_MAX. -/
theorem test_deserialize_errors :
    endsWith (deserializeOn part (withRegion 0x100 120
      (withBytes 0x100 (image1.set 7 0xf5) stateS0))) .hashMismatch false = true ∧
    imageError part ([0, 0, 0, 0, 0, 0, 0x10, 0x40] ++ [0, 0, 0, 0, 0, 0, 0, 0x03] ++
      List.replicate 528 0 ++ [0, 0, 0, 0, 0, 0, 0x10, 0x40] ++ [0, 0, 0, 0, 0, 0, 0, 0x03] ++
      List.replicate 16 0) 576 = some .capacityExceeded := by decide +kernel

/-- V-LDF-1: byte 255 of the image. -/
theorem test_loadFixed :
    let c := loadFixedOn part (withSize 2048 3 (withRegion 0x200 256
      (withBytes 0x200 (List.replicate 255 0 ++ [0x80]) State.reset)))
    c.staged.ctx = ⟨.fix, 2048, 3, 0⟩ ∧ faRead c.staged.fa 0xff = 0x80 ∧
      faRead c.staged.fa 0xfe = 0 := by decide +kernel

/-- V-LDF-4, V-LDF-2 and V-LDF-7: the errors in order. -/
theorem test_loadFixed_errors :
    endsWith (loadFixedOn part (withSize 2048 17 (withRegion 0x200 255 State.reset)))
      .invalidParameter false = true ∧
    endsWith (loadFixedOn part (withSize 2048 3 (withRegion 0x200 255 State.reset)))
      .sizeMismatch false = true ∧
    endsWith (loadFixedOn part (withSize 2048 3 (withRegion 3841 256 State.reset)))
      .bufferRange false = true := by decide +kernel

/-- V-SB-1 and V-BIT-6: bit 499 is bit 51 of word 7; 2^64 - 1 wraps to bit 115. -/
theorem test_setbit :
    (setbitOn (withPos 499 (gen 500 6 0 []))).staged.bv = [(7, 0x0008000000000000)] ∧
    (setbitOn (withPos 0xFFFFFFFFFFFFFFFF (gen 500 6 0 []))).staged.bv =
      [(1, 0x0008000000000000)] := by decide +kernel

/-- V-SB-7 and V-SB-8. -/
theorem test_setbit_errors :
    endsWith (setbitOn State.reset) .noFilter false = true ∧
    endsWith (setbitOn (fix 3)) .wrongMode false = true := by decide +kernel

/-- V-SB-4 and V-SB-5: position 500 wraps to bit 0. -/
theorem test_testbit :
    endsWith (testbitOn (withPos 500 (gen 500 6 0 [(0, 1)]))) .ok true = true ∧
    endsWith (testbitOn (withPos 1 (gen 500 6 0 [(0, 1)]))) .ok false = true := by decide +kernel

/-- V-DIS-1 and V-DIS-3, as two meanings on one state: the context goes, then TEST finds no filter. -/
theorem test_discard :
    (discardOn stateS0).staged.ctx = ⟨.none, 0, 0, 0⟩ ∧
    endsWith (testOn part (withRegion 0 8 (commit (discardOn stateS0) stateS0))) .noFilter false
      = true := by decide +kernel

/-! ## Registers and steps -/

/-- A state with one command in flight, after an earlier one that ended with RESULT = 1. -/
def inFlight (w : Word) (s : State) : State :=
  { s.issue w with result := true }

/-- V-AWB-1 to V-AWB-4: operand and CMD writes while busy are lost; STATUS reads 0x15. -/
theorem test_busy_accesses :
    let s := inFlight 3 stateS0
    s.status = 0x15 ∧ (s.writeOffset 0x038 5).ops = s.ops ∧ (s.writeOffset 0x038 5).awb = true ∧
      (s.writeOffset 0x008 4).inFlight = s.inFlight ∧ (s.writeOffset 0x008 4).awb = true ∧
      (s.writeOffset 0x018 1).doneIe = true := by decide +kernel

/-- 20_memory.md R79 and V-AWB-1: after a lost write and an enable STATUS and IRQ_EN read as before the
command; AWB = 1 and DONE_IE = 1 after the commit. -/
theorem test_busy_reads_are_old :
    let s := ((inFlight 3 stateS0).writeOffset 0x038 5).writeOffset 0x018 1
    s.status = 0x15 ∧ s.irqEn = 0 ∧ (s.ended .ok false).status = 0x1A ∧
      (s.ended .ok false).irqEn = 1 ∧ (s.ended .ok false).irq = true := by decide +kernel

/-- V-IRQ-6 and V-REG-1 to V-REG-3. -/
theorem test_registers :
    let s := { stateS0 with done := true, awb := true, result := true, err := .ok }
    s.status = 0x1E ∧ (s.writeOffset 0x010 0xFFFFFFFFFFFFFFFF).status = 0x14 ∧
      s.readOffset part 0x078 = 0 ∧ (s.writeOffset 0x060 5).ctx = s.ctx ∧ s.readOffset part 0x008 = 0 ∧
      s.readOffset part 0x068 = 4096 := by decide +kernel

/-- V-RST-1 and V-RST-2: the word of ADD placed after reset runs and ends with NoFilter, STATUS 0x1102. -/
theorem test_add_after_reset :
    ∃ t, step (State.reset.withFetchWord 64 3) = .next t ∧ t.status = 0x1102 :=
  ⟨_, rfl, by decide +kernel⟩

/-- 30_encoding.md R98 and program P1: the transactions of `construct 500, 6` and of `add 0, 8`. -/
theorem test_script :
    (Pseudo.construct 500 6).expand.flatMap Stmt.events =
      [.access (.w64 0x020 0x1f4), .access (.w64 0x028 0x6), .access (.w64 0x008 0x01), .wait] ∧
    (Pseudo.add 0 8).expand.flatMap Stmt.events =
      [.access (.w64 0x038 0x0), .access (.w64 0x040 0x8), .access (.w64 0x008 0x03), .wait] := by
  decide

/-! ## Witnesses: states that meet each statement's hypotheses -/

/-- The state in which a command word has just been issued and the engine's turn comes next. -/
def issued (w : Word) (s : State) : State := { inFlight w s with agenda := [.engine] }

/-- The state in which one event comes next. -/
def before (e : Event) (s : State) : State := { s with agenda := [e] }

/-- The greatest region start: no byte from there on lies in BUF. -/
def farRegion (s : State) : State := withRegion 0xFFFFFFFFFFFFFFFF 1 s

theorem far_not_in_buffer (s : State) (n : Nat) (h : 1 ≤ n) :
    Config.params.bufBytes < (farRegion s).ops.addr.toNat + n := by
  have := bufBytes_lt Config.params
  show _ < (0xFFFFFFFFFFFFFFFF#64).toNat + n
  rw [show (0xFFFFFFFFFFFFFFFF#64).toNat = 2 ^ 64 - 1 from rfl]
  omega

theorem near_in_buffer (n : Nat) (h : n ≤ 568) :
    (0 : Word).toNat + n ≤ Config.params.bufBytes := by
  have := bufBytes_ge_568 Config.params
  rw [show (0 : Word).toNat = 0 from rfl]
  omega

/-- IllegalWordsCompleteWithIllegalCommand: each class at its edges. -/
theorem witness_illegalWords :
    (issued 0x100 stateS0).engineNext ∧ (issued 0x100 stateS0).inFlight.isSome = true ∧
    (0x100#64).extractLsb' 8 56 ≠ 0 ∧ (0x8000000000000004#64).extractLsb' 8 56 ≠ 0 ∧
    ((0x00#64).extractLsb' 8 56 = 0 ∧ (0x00#64).extractLsb' 0 8 ∉ assignedOpcodes) ∧
    ((0x0E#64).extractLsb' 8 56 = 0 ∧ (0x0E#64).extractLsb' 0 8 ∉ assignedOpcodes) ∧
    ((0xFF#64).extractLsb' 8 56 = 0 ∧ (0xFF#64).extractLsb' 0 8 ∉ assignedOpcodes) ∧
    ((0x01#64).extractLsb' 8 56 = 0 ∧ (0x01#64).extractLsb' 0 8 ∈ assignedOpcodes) ∧
    ((0x0F#64).extractLsb' 8 56 = 0 ∧ (0x0F#64).extractLsb' 0 8 ∈ assignedOpcodes) :=
  ⟨.inr rfl, rfl, by decide, by decide, by decide, by decide, by decide, by decide, by decide⟩

/-- StepRunsTheDecodedCommand: the engine's turn, and an agenda that is empty. -/
theorem witness_stepRuns (i : Instr) : (issued (encode i) stateS0).runs i ∧
    (inFlight (encode i) stateS0).runs i :=
  ⟨⟨.inr rfl, _, rfl, by cases i <;> rfl⟩, ⟨.inl rfl, _, rfl, by cases i <;> rfl⟩⟩

/-- FetchedWordRunsNext. -/
theorem witness_fetched (i : Instr) : decodeTableWord 64 (encode i).toNat = some i := by
  cases i <;> decide

/-- WriteToCmdIssues: a write while idle, a write while busy, a read. -/
theorem witness_writeToCmd :
    (before (.access (.w64 0x008 3)) stateS0).agenda = [.access (.w64 0x008 3)] ∧
    (before (.access (.w64 0x008 3)) stateS0).busy = false ∧
    (before (.access (.w64 0x008 4)) (inFlight 3 stateS0)).agenda = [.access (.w64 0x008 4)] ∧
    (before (.access (.w64 0x008 4)) (inFlight 3 stateS0)).busy = true ∧
    (before (.access (.r64 0x008)) stateS0).agenda = [.access (.r64 0x008)] :=
  ⟨rfl, rfl, rfl, rfl, rfl⟩

/-- SplitStepsAgreeWithOneTransition. -/
theorem witness_splitSteps (i : Instr) :
    let s := { stateS0 with agenda := [.access (.w64 0x008 (encode i)), .engine] }
    s.agenda = .access (.w64 0x008 (encode i)) :: .engine :: [] ∧ s.busy = false := ⟨rfl, rfl⟩

/-- WaitEndsAfterTheCommit: an idle engine, each command in flight, an illegal word in flight. -/
theorem witness_wait :
    ((before .wait stateS0).agenda = .wait :: [] ∧ (before .wait stateS0).inFlight = none) ∧
    (∀ i : Instr, let s := before .wait (inFlight (encode i) stateS0)
      s.agenda = .wait :: [] ∧ s.inFlight = some ⟨encode i, s.ops, s.awb, s.doneIe⟩ ∧ decode (encode i) = .ok i) ∧
    let s := before .wait (inFlight 0x103 stateS0)
    s.agenda = .wait :: [] ∧ s.inFlight = some ⟨0x103, s.ops, s.awb, s.doneIe⟩ ∧
      decode 0x103#64 = .error .reservedBits :=
  ⟨⟨rfl, rfl⟩, fun i => ⟨rfl, rfl, by cases i <;> rfl⟩, rfl, rfl, rfl⟩

/-- FailingCommandsChangeOnlyStatus and the second part of ErrorCodesAndWhoRaisesThem. -/
theorem witness_failing :
    ∃ t, exec .add State.reset = .next t ∧ t.err = .noFilter ∧ t.err ≠ .ok :=
  ⟨_, rfl, rfl, by decide⟩

/-- The last part of ErrorCodesAndWhoRaisesThem. -/
theorem witness_illegal : (issued 0x0A stateS0).engineNext ∧
    ∃ f, (issued 0x0A stateS0).inFlight = some f ∧ decode f.word = .error .unassignedOpcode :=
  ⟨.inr rfl, _, rfl, rfl⟩

/-- OnlyMarkedOperandsAreRead: operands that differ where the command's row has no mark. -/
theorem witness_marked : ∀ i : Instr, ∃ a b : Operands, a ≠ b ∧ readsSame i a b := by
  intro i
  cases i
  case loadFixed => exact ⟨⟨2048, 3, 0, 0, 256⟩, ⟨2048, 3, 1, 0, 256⟩, by decide, rfl, rfl, rfl, rfl⟩
  case construct => exact ⟨⟨500, 6, 0, 0, 0⟩, ⟨500, 6, 1, 2, 3⟩, by decide, rfl, rfl⟩
  case constructFixed => exact ⟨⟨2048, 3, 0, 0, 0⟩, ⟨2048, 3, 1, 2, 3⟩, by decide, rfl, rfl⟩
  case serialize => exact ⟨⟨0, 0, 0, 4, 0⟩, ⟨1, 2, 3, 4, 5⟩, by decide, rfl⟩
  case setbit => exact ⟨⟨0, 0, 4, 0, 0⟩, ⟨1, 2, 4, 3, 5⟩, by decide, rfl⟩
  case testbit => exact ⟨⟨0, 0, 4, 0, 0⟩, ⟨1, 2, 4, 3, 5⟩, by decide, rfl⟩
  case discard => exact ⟨⟨0, 0, 0, 0, 0⟩, ⟨1, 2, 3, 4, 5⟩, by decide, trivial⟩
  all_goals exact ⟨⟨0, 0, 0, 4, 5⟩, ⟨1, 2, 3, 4, 5⟩, by decide, rfl, rfl⟩

/-- LatchedOperandsAreUsed. -/
theorem witness_latched (i : Instr) : (inFlight (encode i) stateS0).inFlight = some ⟨encode i, stateS0.ops, false, false⟩ ∧
    ∃ t, exec i (inFlight (encode i) stateS0) = .next t := ⟨rfl, _, exec_eq _ _⟩

/-- ConstructFollowsItsRule: each clause at its edges, 2^64 - 1 above every M_MAX, 4096 below or at it. -/
theorem witness_construct :
    (withSize 500 0 stateS0).operands.argK = 0 ∧
    256 ≤ (withSize 500 256 stateS0).operands.argK.toNat ∧
    (withSize 0 255 stateS0).operands.argK ≠ 0 ∧
    (withSize 0 255 stateS0).operands.argK.toNat < 256 ∧
    (withSize 0 255 stateS0).operands.argM = 0 ∧
    Config.params.mMax < (withSize 0xFFFFFFFFFFFFFFFF 1 stateS0).operands.argM.toNat ∧
    (withSize 0xFFFFFFFFFFFFFFFF 1 stateS0).operands.argK ≠ 0 ∧
    (withSize 4096 255 stateS0).operands.argM ≠ 0 ∧
    (withSize 4096 255 stateS0).operands.argM.toNat ≤ Config.params.mMax := by
  have h := mMax_le Config.params
  have h' := mMax_ge Config.params
  refine ⟨by decide, by decide, by decide, by decide, by decide, ?_, by decide, by decide, h'⟩
  show _ < (0xFFFFFFFFFFFFFFFF#64).toNat
  rw [show (0xFFFFFFFFFFFFFFFF#64).toNat = 2 ^ 64 - 1 from rfl]
  omega

/-- ConstructFixedFollowsItsRule, and the first clause of LoadFixedFollowsItsRule. -/
theorem witness_constructFixed :
    (withSize 2047 3 stateS0).operands.argM ≠ 2048 ∧ (withSize 2048 0 stateS0).operands.argK = 0 ∧
    16 < (withSize 2048 17 stateS0).operands.argK.toNat ∧
    (withSize 2048 1 stateS0).operands.argM = 2048 ∧
    (withSize 2048 1 stateS0).operands.argK ≠ 0 ∧
    (withSize 2048 16 stateS0).operands.argK ≠ 0 ∧
    (withSize 2048 16 stateS0).operands.argK.toNat ≤ 16 := by decide

/-- DiscardFollowsItsRule, its second part. -/
theorem witness_discard : (∃ t, exec .discard stateS0 = .next t) ∧
    Instr.add ∈ [Instr.add, .test, .serialize, .setbit, .testbit] := ⟨⟨_, rfl⟩, by decide⟩

/-- KeyIsTheBufRegion: a written byte at either end of the key, an unwritten one after it. -/
theorem witness_key :
    (withRegion 0 17 stateS0).operands.len.toNat = 17 ∧
    Memory.read stateS0.buf ((withRegion 0 17 stateS0).operands.addr.toNat + 0) = some 0x01 ∧
    Memory.read stateS0.buf ((withRegion 0 17 stateS0).operands.addr.toNat + 15) = some 0x10 ∧
    Memory.read stateS0.buf ((withRegion 0 17 stateS0).operands.addr.toNat + 16) = none := by decide

/-- GenPositionsAreTheRoundsChunks, FixedPairsAreTheDigestsBytePairs, BigEndianFieldsRoundTrip,
GeneralImageLayout and FilterBitInTheImage: the indexes and sizes they speak of exist. -/
theorem witness_indexes :
    254 < (255#64).toNat ∧ (16#64).toNat ≤ 16 ∧ 15 < (16#64).toNat ∧ 7 < 8 ∧ keyA.length = 8 ∧
    63 < (4033#64 + 63) / 64 ∧ 499 < (500#64).toNat := by decide

/-- AddFollowsItsRule and TestFollowsItsRule: NONE; the empty key; a region past BUF; m = 0; m > 0; FIX. -/
theorem witness_addTest :
    State.reset.ctx.mode = .none ∧
    (∀ s ∈ [withRegion 0 0 stateS0, withRegion 4096 0 (fix 3)],
      s.ctx.mode ≠ .none ∧ s.operands.len = 0) ∧
    (farRegion stateS0).ctx.mode ≠ .none ∧ (farRegion stateS0).operands.len ≠ 0 ∧
    Config.params.bufBytes <
      (farRegion stateS0).operands.addr.toNat + (farRegion stateS0).operands.len.toNat ∧
    (withRegion 0 8 (gen 0 6 0 [])).ctx.mode = .gen ∧ (withRegion 0 8 (gen 0 6 0 [])).ctx.m = 0 ∧
    (withRegion 0 8 stateS0).ctx.mode = .gen ∧ (withRegion 0 8 stateS0).ctx.m ≠ 0 ∧
    (withRegion 0 8 (fix 3)).ctx.mode = .fix ∧
    ∀ s ∈ [withRegion 0 8 (gen 0 6 0 []), withRegion 0 8 stateS0, withRegion 0 8 (fix 3)],
      s.operands.len ≠ 0 ∧
        s.operands.addr.toNat + s.operands.len.toNat ≤ Config.params.bufBytes := by
  refine ⟨rfl, by decide, by decide, by decide, ?_, rfl, rfl, rfl, by decide, rfl, ?_⟩
  · exact far_not_in_buffer stateS0 1 (Nat.le_refl 1)
  · intro s hs
    simp only [List.mem_cons, List.not_mem_nil, or_false] at hs
    rcases hs with rfl | rfl | rfl <;> exact ⟨by decide, near_in_buffer 8 (by decide)⟩

/-- The ADD of KA to the state of V-ADD-1 ends with code 0x00. -/
theorem add_completes (s : State) (hm : s.ctx.mode = .gen) (hz : s.ctx.m ≠ 0)
    (hl : s.operands = ⟨0, 0, 0, 0, 8⟩) : (completion s .add).code = .ok := by
  have hb : inBuf Config.params (0 : Word).toNat (8 : Word).toNat := near_in_buffer 8 (by decide)
  simp only [completion, addOn, keyChecks, hm, hl]
  rw [if_neg (by decide), if_neg (by decide), if_neg (not_not_intro hb), if_pos trivial, if_neg hz]
  rfl

/-- NoFalseNegatives. -/
theorem witness_noFalseNegatives :
    let s := withRegion 0 8 stateS0
    let t := commit (completion s .add) s
    s.operands.len ≠ 0 ∧ exec .add s = .next t ∧ t.err = .ok ∧ FilterRun t 0 t ∧ t.key = s.key ∧
      t.operands.addr.toNat + t.operands.len.toNat ≤ Config.params.bufBytes := by
  intro s t
  have hc : (completion s .add).code = .ok := add_completes s rfl (by decide) rfl
  refine ⟨by decide, exec_eq _ _, hc, .start t, ?_, near_in_buffer 8 (by decide)⟩
  have hb : t.buf = s.buf := by
    rcases exec_cases (exec_eq .add s) with ⟨e, h, -⟩ | ⟨w, r, h, -, ⟨rfl, -⟩ | ⟨rfl, -⟩ | ⟨rfl, -⟩⟩ <;>
      exact (congrArg State.buf h :)
  unfold State.key State.memRead
  rw [hb]
  rfl

/-- A state runs one command. -/
theorem runs_unique {s : State} {i j : Instr} (hi : s.runs i) (hj : s.runs j) : i = j := by
  obtain ⟨-, f, hf, hd⟩ := hi
  obtain ⟨-, g, hg, hd'⟩ := hj
  rw [hf] at hg; cases hg; rw [hd] at hd'; exact Except.ok.inj hd'

/-- The run that the three statements about a kept filter allow since a failing replacing command replaces
nothing: CONSTRUCT with k = 0, in either mode. -/
theorem failed_construct_keeps (s : State) (hr : (issued 1 (withSize 500 0 s)).runs .construct) :
    ∃ t, t.err = .invalidParameter ∧ FilterRun (issued 1 (withSize 500 0 s)) 0 t :=
  ⟨_, rfl, .other (.start _) ⟨by simp [issued], fun _ _ _ =>
      (show ErrorCode.invalidParameter ≠ .ok by decide)⟩
    ((step_of_runs hr).trans (exec_eq _ _)) fun h => absurd (runs_unique h.1 hr) (by decide)⟩

/-- NoFalseNegatives, NumElementsCountsAdds, FixedFilterHasNoCounter: runs with a failing CONSTRUCT. -/
theorem witness_failed_replacement :
    (∃ t, t.err = .invalidParameter ∧ FilterRun (issued 1 (withSize 500 0 stateS0)) 0 t) ∧
    ∃ t, t.err = .invalidParameter ∧ FilterRun (issued 1 (withSize 500 0 (fix 3))) 0 t :=
  ⟨failed_construct_keeps _ ⟨.inr rfl, _, rfl, rfl⟩, failed_construct_keeps _ ⟨.inr rfl, _, rfl, rfl⟩⟩

/-- NumElementsCountsAdds: a run with one ADD that counts. -/
theorem witness_numElements :
    ∃ t, (issued 3 (withRegion 0 8 stateS0)).ctx.mode = .gen ∧
      FilterRun (issued 3 (withRegion 0 8 stateS0)) 1 t := by
  have hr : (issued 3 (withRegion 0 8 stateS0)).runs .add := ⟨.inr rfl, _, rfl, rfl⟩
  refine ⟨_, rfl, .add (.start _) ⟨by decide, fun i hi hrep => ?_⟩
    ((step_of_runs hr).trans (exec_eq _ _)) ⟨hr, by decide, ?_⟩⟩
  · rw [runs_unique hi hr] at hrep; cases hrep
  · exact add_completes _ rfl (by decide) rfl

/-- FixedFilterHasNoCounter. -/
theorem witness_fixedRun : (fix 3).ctx.mode = .fix ∧ (fix 3).ctx.n = 0 ∧ FilterRun (fix 3) 0 (fix 3) :=
  ⟨rfl, rfl, .start _⟩

/-- SetbitFollowsItsRule and TestbitFollowsItsRule. -/
theorem witness_setbit :
    State.reset.ctx.mode = .none ∧ (fix 3).ctx.mode = .fix ∧ (gen 0 6 0 []).ctx.mode = .gen ∧
    (gen 0 6 0 []).ctx.m = 0 ∧ (gen 1 6 0 []).ctx.mode = .gen ∧ (gen 1 6 0 []).ctx.m ≠ 0 := by decide

/-- BucketBitsAreNeverCleared: a DESERIALIZE that loads m = 64 could do it; here the reset input does. -/
theorem witness_bucketBits :
    ∃ t, step (before .reset stateS0) = .next t ∧ bvBit (before .reset stateS0).bv 0 = true ∧
      bvBit t.bv 0 = false := ⟨_, rfl, by decide, rfl⟩

/-- FixedBitsAreNeverCleared: a CONSTRUCT_FIXED that runs. -/
theorem witness_fixedBits :
    let s := issued 2 (withSize 2048 3 { fix 3 with fa := faWrite faZero 0xff 0x80 })
    ∃ t, step s = .next t ∧ faBit s.fa 0xff 7 = true ∧ faBit t.fa 0xff 7 = false :=
  ⟨_, rfl, by decide +kernel, by decide +kernel⟩

/-- BitsBeyondCapacityAreNeverTouched: m = 64, the first bit beyond it, words that differ only beyond. -/
theorem witness_beyond :
    (gen 64 6 0 [(0, 1)]).ctx.mode = .gen ∧ (gen 64 6 0 [(0, 1)]).ctx.m.toNat ≤ 64 ∧
    (∃ t, exec .setbit (gen 64 6 0 [(0, 1)]) = .next t) ∧
    (∀ b, b < (gen 64 6 0 [(0, 1)]).ctx.m.toNat →
      bvBit [(0, 1), (1, 7)] b = bvBit (gen 64 6 0 [(0, 1)]).bv b) ∧
    ∃ t, exec .test (gen 64 6 0 [(0, 1)]) = .next t := by
  refine ⟨rfl, by decide, ⟨_, exec_eq _ _⟩, fun b hb => ?_, ⟨_, exec_eq _ _⟩⟩
  have hb : b < 64 := hb
  unfold bvBit
  rw [show b / 64 = 0 by omega]
  rfl

/-- SerializeFollowsItsRule: every clause, with the first and the last index. -/
theorem witness_serialize :
    State.reset.ctx.mode = .none ∧ (farRegion stateS0).ctx.mode = .gen ∧
    (farRegion (fix 3)).ctx.mode = .fix ∧
    Config.params.bufBytes < (farRegion stateS0).operands.addr.toNat +
      (24 + 8 * (((farRegion stateS0).ctx.m.toNat + 63) / 64) + 32) ∧
    Config.params.bufBytes < (farRegion (fix 3)).operands.addr.toNat + 256 ∧
    stateS0.operands.addr.toNat + (24 + 8 * ((stateS0.ctx.m.toNat + 63) / 64) + 32) ≤
      Config.params.bufBytes ∧
    119 < 24 + 8 * ((stateS0.ctx.m.toNat + 63) / 64) + 32 ∧
    (fix 3).operands.addr.toNat + 256 ≤ Config.params.bufBytes ∧
    (fix 3).operands.addr.toNat + 256 ≤ 256 ∧
    stateS0.inFlight = none ∧ (∃ t, exec .serialize stateS0 = .next t) :=
  ⟨rfl, rfl, rfl, far_not_in_buffer stateS0 120 (by decide), far_not_in_buffer (fix 3) 256 (by decide),
    near_in_buffer 120 (by decide), by decide, near_in_buffer 256 (by decide), by decide, rfl, _, exec_eq _ _⟩

/-! ### Images -/

/-- A state with a byte string at BUF[0 ..] and a region of its length. -/
def withImage (b : List Byte) (s : State) : State :=
  withRegion 0 (BitVec.ofNat 64 b.length) (withBytes 0 b s)

theorem image_withImage (b : List Byte) (h : b.length ≤ 568) (s : State) (hs : s.inFlight = none) :
    (withImage b s).image = b ∧ (withImage b s).operands.len.toNat = b.length ∧
    (withImage b s).operands.addr.toNat + b.length ≤ Config.params.bufBytes := by
  have ho : (withImage b s).operands = (withImage b s).ops := by
    unfold State.operands; rw [show (withImage b s).inFlight = none from hs]
  have hl : (withImage b s).operands.len.toNat = b.length := by
    rw [ho]
    show (BitVec.ofNat 64 b.length).toNat = _
    rw [BitVec.toNat_ofNat, Nat.mod_eq_of_lt (by omega)]
  refine ⟨image_of_written (m := s.buf) (a := 0) rfl (by rw [ho]; rfl) hl, hl, ?_⟩
  rw [ho]
  exact near_in_buffer _ h

/-- A prefix followed by its hash. -/
def sealed (pre : List Byte) : List Byte := pre ++ (Config.params.hash pre).toList

theorem length_sealed (pre : List Byte) : (sealed pre).length = pre.length + 32 := by simp [sealed]

theorem sealed_hash (pre : List Byte) :
    (Config.params.hash ((sealed pre).take pre.length)).toList = (sealed pre).drop pre.length := by
  rw [sealed, List.take_left, List.drop_left]

/-- A state that holds a sealed prefix meets the region and the hash hypotheses of DESERIALIZE. -/
theorem sealed_meets (pre : List Byte) (h : pre.length ≤ 500) :
    let s := withImage (sealed pre) State.reset
    s.image = sealed pre ∧ s.operands.len.toNat = pre.length + 32 ∧
      s.operands.addr.toNat + (pre.length + 32) ≤ Config.params.bufBytes ∧
      (Config.params.hash (s.image.take (pre.length + 32 - 32))).toList =
        s.image.drop (pre.length + 32 - 32) := by
  have hl := length_sealed pre
  obtain ⟨h1, h2, h3⟩ := image_withImage (sealed pre) (by omega) State.reset rfl
  rw [hl] at h2 h3
  refine ⟨h1, h2, h3, ?_⟩
  rw [h1, Nat.add_sub_cancel]
  exact sealed_hash pre

/-- A string whose last 32 bytes are not the hash of the empty prefix. -/
def badImage : List Byte := (Config.params.hash []).toList.map (· + 1)

/-- DeserializeErrorsInOrder, its first three clauses: past BUF; 0 and 31 bytes; 32 bytes that are no hash. -/
theorem witness_deserializeErrors :
    Config.params.bufBytes < (farRegion stateS0).operands.addr.toNat + 1 ∧
    (∀ n ∈ [0, 31], (withRegion 0 (BitVec.ofNat 64 n) stateS0).operands.len.toNat < 32) ∧
    (withRegion 0 31 stateS0).operands.addr.toNat + 31 ≤ Config.params.bufBytes ∧
    (withImage badImage State.reset).operands.len.toNat = 32 ∧
    (withImage badImage State.reset).operands.addr.toNat + 32 ≤ Config.params.bufBytes ∧
    (Config.params.hash ((withImage badImage State.reset).image.take (32 - 32))).toList ≠
      (withImage badImage State.reset).image.drop (32 - 32) := by
  have hl : badImage.length = 32 := by simp [badImage]
  obtain ⟨h1, h2, h3⟩ := image_withImage badImage (by omega) State.reset rfl
  rw [hl] at h2 h3
  refine ⟨far_not_in_buffer stateS0 1 (by decide), by decide, near_in_buffer 31 (by decide), h2, h3, ?_⟩
  rw [h1]
  intro h
  have h0 := congrArg (·[0]?) h
  simp [badImage] at h0

/-- DeserializeErrorsInOrder, its last two clauses: a hash over 0 and over 23 bytes (lengths 32 and 55); over
24 bytes with m = 1 and no word (TruncatedData), with m = 0 (loads); and over 32 bytes with m = 64 (loads). -/
theorem witness_deserializeSealed :
    let s : List Byte → State := fun pre => withImage (sealed pre) State.reset
    ∀ pre ∈ [[], List.replicate 23 0, be8 1 ++ List.replicate 16 0, List.replicate 24 0,
        be8 64 ++ List.replicate 24 0],
      (s pre).operands.len.toNat = pre.length + 32 ∧
      (s pre).operands.addr.toNat + (pre.length + 32) ≤ Config.params.bufBytes ∧
      (Config.params.hash ((s pre).image.take (pre.length + 32 - 32))).toList =
        (s pre).image.drop (pre.length + 32 - 32) := by
  intro s pre hp
  have hl : pre.length ≤ 500 := by
    simp only [List.mem_cons, List.not_mem_nil, or_false] at hp
    rcases hp with rfl | rfl | rfl | rfl | rfl <;> decide
  exact (sealed_meets pre hl).2

/-- The CapacityExceeded branch of DeserializeErrorsInOrder is reached in every part whose BUF holds an image
with one word more than BV (the least BUF does not). V-DES-12 is such an image. -/
theorem witness_deserializeCapacity (h : 64 + Config.params.mMax / 8 ≤ Config.params.bufBytes) :
    ∃ l m : Nat, l ≤ Config.params.bufBytes ∧ 56 ≤ l ∧ Config.params.mMax < m ∧
      8 * ((m + 63) / 64) ≤ l - 56 := by
  have := mMax_mod Config.params
  exact ⟨64 + Config.params.mMax / 8, Config.params.mMax + 1, h, by omega, by omega, by omega⟩

/-- DeserializeLoadsTheImage: m = 0 with no word, and m = 64 with one. -/
theorem witness_deserializeLoads :
    ∀ pre ∈ [be8 0 ++ List.replicate 16 0, be8 64 ++ List.replicate 24 0],
      let s := withImage (sealed pre) State.reset
      let m := be64dec (slice s.image 0 8)
      56 ≤ pre.length + 32 ∧ 8 * ((m.toNat + 63) / 64) ≤ pre.length + 32 - 56 ∧
        m.toNat ≤ Config.params.mMax := by
  have hM := mMax_ge Config.params
  intro pre hp
  have hl : pre.length ≤ 500 := by
    simp only [List.mem_cons, List.not_mem_nil, or_false] at hp
    rcases hp with rfl | rfl <;> decide
  have hi := (sealed_meets pre hl).1
  simp only [hi]
  simp only [List.mem_cons, List.not_mem_nil, or_false] at hp
  rcases hp with rfl | rfl
  · rw [sealed, List.append_assoc, slice_append_left (by decide),
      show slice (be8 0) 0 8 = be8 0 from rfl, be64dec_be8]
    exact ⟨by decide, by decide, Nat.zero_le _⟩
  · rw [sealed, List.append_assoc, slice_append_left (by decide),
      show slice (be8 64) 0 8 = be8 64 from rfl, be64dec_be8]
    exact ⟨by decide, by decide, by show 64 ≤ _; omega⟩

/-- LoadFixedFollowsItsRule, the other clauses: LEN = 255 and 257; past BUF; a region that fits. -/
theorem witness_loadFixed :
    (withSize 2048 16 (withRegion 0 255 stateS0)).operands.len ≠ 256 ∧
    (withSize 2048 16 (withRegion 0 257 stateS0)).operands.len ≠ 256 ∧
    (withSize 2048 1 (withRegion 0 256 stateS0)).operands.len = 256 ∧
    Config.params.bufBytes <
      (withSize 2048 1 (withRegion 0xFFFFFFFFFFFFFFFF 256 stateS0)).operands.addr.toNat + 256 ∧
    (withSize 2048 1 (withRegion 0 256 stateS0)).operands.addr.toNat + 256 ≤ Config.params.bufBytes :=
  ⟨by decide, by decide, rfl, far_not_in_buffer stateS0 256 (by decide), near_in_buffer 256 (by decide)⟩

/-- GeneralRoundTrip and ChecksumSensitivity: SERIALIZE of the state of V-ADD-1, then a state whose operands
are that image; a changed byte at either end of the prefix and of the checksum. -/
theorem witness_generalRoundTrip :
    stateS0.ctx.mode = .gen ∧ stateS0.ctx.m.toNat ≤ Config.params.mMax ∧
    stateS0.operands.addr.toNat + (24 + 8 * ((stateS0.ctx.m.toNat + 63) / 64) + 32) ≤
      Config.params.bufBytes ∧
    (∃ t u : State, exec .serialize stateS0 = .next t ∧ u.buf = t.buf ∧
      u.operands.addr = stateS0.operands.addr ∧ u.operands.len = t.outLen) ∧
    ∀ j ∈ [0, 87, 88, 119], j < 24 + 8 * ((stateS0.ctx.m.toNat + 63) / 64) + 32 ∧
      ∃ (t u : State) (b : Byte), exec .serialize stateS0 = .next t ∧
        Memory.read t.buf (stateS0.operands.addr.toNat + j) ≠ some b ∧
        u.buf = Memory.write t.buf (stateS0.operands.addr.toNat + j) b ∧
        u.operands.addr = stateS0.operands.addr ∧ u.operands.len = t.outLen := by
  have hM := mMax_ge Config.params
  refine ⟨rfl, by show 500 ≤ _; omega, near_in_buffer 120 (by decide),
    ⟨_, { stateS0 with
      ops := { stateS0.ops with len := (commit (completion stateS0 .serialize) stateS0).outLen }
      buf := (commit (completion stateS0 .serialize) stateS0).buf }, exec_eq _ _, rfl, rfl, rfl⟩,
    fun j hj => ⟨by revert j; decide, ?_⟩⟩
  let t := commit (completion stateS0 .serialize) stateS0
  let x := Memory.read t.buf (stateS0.operands.addr.toNat + j)
  refine ⟨t, { stateS0 with
    ops := { stateS0.ops with len := t.outLen }
    buf := Memory.write t.buf (stateS0.operands.addr.toNat + j) (x.getD 0 + 1) }, x.getD 0 + 1,
    exec_eq _ _, ?_, rfl, rfl, rfl⟩
  show x ≠ _
  cases x with
  | none => simp
  | some b => simp

/-- GeneralRoundTrip, its last part: a TEST of KA in the serialized filter ends with code 0x00. -/
theorem witness_roundTripTest :
    (withRegion 0 8 stateS0).ctx = stateS0.ctx ∧ (withRegion 0 8 stateS0).bv = stateS0.bv ∧
    ∃ t, exec .test (withRegion 0 8 stateS0) = .next t ∧ t.err = .ok := by
  refine ⟨rfl, rfl, _, exec_eq _ _, ?_⟩
  have hb : inBuf Config.params (0 : Word).toNat (8 : Word).toNat := near_in_buffer 8 (by decide)
  have ho : (withRegion 0 8 stateS0).operands = ⟨0, 0, 0, 0, 8⟩ := rfl
  have hm : (withRegion 0 8 stateS0).ctx = ⟨.gen, 500, 6, 1⟩ := rfl
  show (testOn Config.params _).code = .ok
  simp only [testOn, keyChecks, ho, hm]
  rw [if_neg (by decide), if_neg (by decide), if_neg (not_not_intro hb), if_pos trivial,
    if_neg (by decide)]
  rfl

/-- FixedRoundTrip. -/
theorem witness_fixedRoundTrip :
    (fix 3).ctx.mode = .fix ∧ (fix 3).ctx.m = 2048 ∧ (fix 3).ctx.k ≠ 0 ∧
    (fix 3).ctx.k.toNat ≤ 16 ∧ (fix 3).ctx.n = 0 ∧
    (fix 3).operands.addr.toNat + 256 ≤ Config.params.bufBytes ∧
    ∃ t u : State, exec .serialize (fix 3) = .next t ∧ u.buf = t.buf ∧
      u.operands.addr = (fix 3).operands.addr ∧ u.operands.len = 256 ∧ u.operands.argM = 2048 ∧
      u.operands.argK = (fix 3).ctx.k :=
  ⟨rfl, rfl, by decide, by decide, rfl, near_in_buffer 256 (by decide), _,
    { fix 3 with
      ops := ⟨2048, 3, 0, 0, 256⟩
      buf := (commit (completion (fix 3) .serialize) (fix 3)).buf }, exec_eq _ _, rfl, rfl, rfl, rfl,
    rfl⟩

/-- TruncatedImagesAreRejected: one word, one byte of it lost and all eight lost. -/
theorem witness_truncated :
    ∀ n ∈ [1, 8], ∃ (u : State) (pre : List Byte),
      pre = (generalImage Config.params ⟨.gen, 64, 6, 1⟩ []).take (24 + 8 * 1 - n) ∧
      ((64#64).toNat + 63) / 64 = 1 ∧ u.image = pre ++ (Config.params.hash pre).toList ∧
      u.operands.addr.toNat + u.operands.len.toNat ≤ Config.params.bufBytes := by
  intro n hn
  have hl : ((generalImage Config.params ⟨.gen, 64, 6, 1⟩ []).take (24 + 8 * 1 - n)).length ≤ 500 := by
    rw [List.length_take]; omega
  obtain ⟨h1, h2, h3, -⟩ := sealed_meets _ hl
  exact ⟨_, _, rfl, rfl, h1, by rw [h2]; exact h3⟩

/-! ### Registers, buffer, reset and the whole machine -/

/-- StatusFields, RegisterReads, OperandRegisterWrites, ReadOnlyWritesAreIgnored and
InterruptFollowsDoneAndEnable: an access at every offset class, idle and busy. -/
theorem witness_registers :
    (∀ a : Access, (before (.access a) stateS0).agenda = [.access a] ∧
      (before (.access a) (inFlight 3 stateS0)).agenda = [.access a]) ∧
    stateS0.busy = false ∧ (inFlight 3 stateS0).busy = true ∧
    (∀ off ∈ [0x000, 0x070, 0x078, 0xFF8], off < 0x1000 ∧ off % 8 = 0) ∧
    0x078 ≤ 0xFF8 ∧ (0x2#64).getLsbD 1 = true ∧ 0x040 ∈ [0x020, 0x028, 0x030, 0x038, 0x040] :=
  ⟨fun _ => ⟨rfl, rfl⟩, rfl, rfl, by decide, by decide, by decide, by decide⟩

/-- BufferByteWrites and BufferByteReads: the first and the last byte, written or not. -/
theorem witness_buffer :
    0 < Config.params.bufBytes ∧ Config.params.bufBytes - 1 < Config.params.bufBytes ∧
    Memory.read stateS0.buf 0 = some 0x01 ∧ Memory.read State.reset.buf 0 = none := by
  have := bufBytes_ge_568 Config.params
  exact ⟨by omega, by omega, by decide, rfl⟩

/-- AccessesWhileBusyDoNotReachTheCommand. -/
theorem witness_busyAccess :
    let s := before (.access (.w64 0x038 5)) (inFlight 3 stateS0)
    s.agenda = [.access (.w64 0x038 5)] ∧ s.busy = true ∧ ∃ t, step s = .next t := ⟨rfl, rfl, _, rfl⟩

/-- A busy state with a live filter and a written buffer meets the invariant. -/
theorem busy_inv (w : Word) (a : List Event) :
    { inFlight w stateS0 with result := false, agenda := a }.Inv := by
  have hM := mMax_ge Config.params
  have hB := bufBytes_ge_568 Config.params
  have keys : ∀ c ∈ stateS0.buf, c.1 < 16 := by decide
  have words : ∀ c ∈ stateS0.bv, c.1 < 64 := by decide
  refine ⟨?_, show Buckets.wf stateS0.bv by decide, fun c hc => ?_,
    show Memory.wf stateS0.buf by decide, fun c hc => ?_, fun _ => rfl, ?_, ?_⟩
  · show 500 ≤ _; omega
  · have := words c hc
    unfold Params.bucketWords; omega
  · have := keys c hc
    omega
  · rintro f h; cases h; rfl
  · intro h; cases h

/-- RegisterReadsWhileBusyAreOld: an issue; a busy state with an operand write to come, which has a busy next
state in which AWB has changed. -/
theorem witness_busyReads :
    (before (.access (.w64 0x008 3)) stateS0).busy = false ∧
    let s := before (.access (.w64 0x038 5)) { inFlight 3 stateS0 with result := false }
    s.Inv ∧ s.busy = true ∧ ∃ t, step s = .next t ∧ t.busy = true ∧ t.awb ≠ s.awb :=
  ⟨rfl, busy_inv 3 _, rfl, _, rfl, rfl, by decide⟩

/-- UnsupportedAccessesHaveNoStep: the edges of the two windows; widths and alignments. -/
theorem witness_unsupported :
    (∀ a ∈ [Access.w64 0x1000 0, .r8 0xFFFF], 0x1000 ≤ a.addr ∧ a.addr < 0x10000) ∧
    0x1000 ≤ (Access.r8 (0x10000 + Config.params.bufBytes)).addr ∧
    0x10000 + Config.params.bufBytes ≤ (Access.r8 (0x10000 + Config.params.bufBytes)).addr ∧
    (∀ a ∈ [Access.r8 0x000, .otherWidth 0xFFF], a.addr < 0x1000 ∧ a ≠ .r64 a.addr ∧
      a ≠ .w64 a.addr 0) ∧
    (∀ a ∈ [Access.r64 0x001, .w64 0xFFF 0], a.addr < 0x1000 ∧ a.addr % 8 ≠ 0) ∧
    0x10000 ≤ (Access.r64 (0xFFFF + Config.params.bufBytes)).addr ∧
    (Access.r64 (0xFFFF + Config.params.bufBytes)).addr < 0x10000 + Config.params.bufBytes ∧
    0x10000 ≤ (Access.otherWidth 0x10000).addr ∧
    (Access.otherWidth 0x10000).addr < 0x10000 + Config.params.bufBytes := by
  have := bufBytes_ge_568 Config.params
  refine ⟨by decide, ?_, ?_, by decide, by decide, ?_, ?_, ?_, ?_⟩ <;> simp only [Access.addr] <;> omega

/-- ResetInputDiscardsTheCommand: a command is in flight. -/
theorem witness_resetInput :
    (before .reset (inFlight 3 stateS0)).agenda = [.reset] ∧
    (before .reset (inFlight 3 stateS0)).busy = true := ⟨rfl, rfl⟩

/-- StepKeepsInvariant: a busy state with a live filter and a written buffer meets the invariant, and has a
next state. -/
theorem witness_invariant :
    (issued 0x0F { stateS0 with result := false }).busy = true ∧
    { issued 0x0F stateS0 with result := false }.Inv ∧
    ∃ t, step { issued 0x0F stateS0 with result := false } = .next t :=
  ⟨rfl, busy_inv 0x0F [.engine], _, rfl⟩

/-- DeadStoresAreNeverObservable: two states that differ in a word beyond m and in FA. -/
theorem witness_deadStores :
    let s := before (.access (.r64 0x010)) (gen 64 6 0 [(0, 1)])
    let t := { s with bv := [(0, 1), (1, 7)], fa := faWrite s.fa 0 1 }
    s.LiveEq t ∧ s.bv ≠ t.bv ∧ ∃ s', step s = .next s' := by
  refine ⟨⟨rfl, fun w hw => ?_, fun h => by cases h⟩, by decide, _, rfl⟩
  have : w = 0 := by
    have h1 : w < wordCount 64 := hw.2
    have h2 : wordCount 64 = 1 := by decide
    omega
  subst this
  rfl

end Sys2Proof.Tests
end

/-! # Big-endian fields (00_scope.md R11; 20_memory.md R66) -/

namespace Sys2Proof.Proofs

open Sys2Proof.Machine Sys2Proof.Laws

/-- Byte i of an encoding has n - 1 - i less significant bytes below it. -/
theorem getElem?_beBytes {n i : Nat} (h : i < n) (v : Nat) :
    (beBytes n v)[i]? = some (BitVec.ofNat 8 (v / 256 ^ (n - 1 - i))) := by
  induction n generalizing i with
  | zero => omega
  | succ n ih =>
    cases i with
    | zero => simp [beBytes]
    | succ i =>
      have hexp : n + 1 - 1 - (i + 1) = n - 1 - i := by omega
      rw [beBytes, List.getElem?_cons_succ, ih (by omega), hexp]

/-- Dividing by 256 ^ j drops the j lowest bytes of a word, so what the cut to 8 bits leaves is its byte j. -/
theorem ofNat_toNat_div_eq_extractLsb' (v : Word) (j : Nat) :
    BitVec.ofNat 8 (v.toNat / 256 ^ j) = v.extractLsb' (8 * j) 8 := by
  have hpow : 256 ^ j = 2 ^ (8 * j) := by rw [Nat.pow_mul]
  apply BitVec.eq_of_toNat_eq
  rw [BitVec.toNat_ofNat, BitVec.extractLsb'_toNat, Nat.shiftRight_eq_div_pow, hpow]

theorem getElem?_be8 (v : Word) {i : Nat} (h : i < 8) :
    (be8 v)[i]? = some (v.extractLsb' (8 * (7 - i)) 8) := by
  rw [be8, getElem?_beBytes h, ofNat_toNat_div_eq_extractLsb']

/-- Settles O20: the byte order by induction on the width of the encoding, the two round trips by the laws of
byte strings. -/
theorem bigEndianFieldsRoundTrip : Obligations.BigEndianFieldsRoundTrip :=
  ⟨fun v _ hi => getElem?_be8 v hi, be64dec_be8, fun _ hs => be8_be64dec hs⟩

end Sys2Proof.Proofs

/-! # The invariant (10_state.md R28, R29, R32, R39 to R44; 20_memory.md R60) -/

namespace Sys2Proof.Proofs

open Sys2Proof.Machine Sys2Proof.Laws

/-! ## The stores a command may write -/

/-- The part of `State.Inv` that speaks of what a command may write: context, BV and BUF. -/
structure StoresInv (w : Staged) : Prop where
  ctx_legal : w.ctx.legal Config.params
  bv_wf : Buckets.wf w.bv
  bv_bound : ∀ c ∈ w.bv, c.1 < Config.params.bucketWords
  buf_wf : Memory.wf w.buf
  buf_bound : ∀ c ∈ w.buf, c.1 < Config.params.bufBytes

theorem storesInv_of_inv {s : State} (h : s.Inv) : StoresInv s.staged :=
  ⟨h.ctx_legal, h.bv_wf, h.bv_bound, h.buf_wf, h.buf_bound⟩

theorem legal_none {p : Params} : Ctx.legal p ⟨.none, 0, 0, 0⟩ := ⟨rfl, rfl, rfl⟩

theorem legal_fix {p : Params} {k : Word} (h0 : k ≠ 0) (h16 : k.toNat ≤ 16) :
    Ctx.legal p ⟨.fix, 2048, k, 0⟩ := by
  have hpos : k.toNat ≠ 0 := fun h => h0 (BitVec.eq_of_toNat_eq h)
  exact ⟨rfl, Nat.one_le_iff_ne_zero.mpr hpos, h16, rfl⟩

/-- In GEN mode the live words of a state that meets the invariant lie in the bucket store. -/
theorem liveWords_le_bucketWords {s : State} (h : s.Inv) (hm : s.ctx.mode = .gen) :
    wordCount s.ctx.m ≤ Config.params.bucketWords :=
  wordCount_le_bucketWords ((legal_gen hm).mp h.ctx_legal)

/-- Whatever a successful command stages keeps the stores canonical, bounded and with a legal context. -/
theorem success_keeps_storesInv {s : State} {w : Staged} {r : Bool} {i : Instr} (h : s.Inv)
    (hs : Success s w r i) : StoresInv w := by
  have hw := storesInv_of_inv h
  cases i with
  | construct =>
    obtain ⟨-, rfl, -, -, -, hm⟩ := hs
    exact { hw with
      ctx_legal := hm
      bv_wf := bucket_wf_clear h.bv_wf _
      bv_bound := bucket_bound_clear h.bv_bound _ }
  | constructFixed =>
    obtain ⟨-, rfl, -, hk, hk'⟩ := hs
    exact { hw with ctx_legal := legal_fix hk hk' }
  | add =>
    obtain ⟨-, ⟨rfl, -⟩ | ⟨rfl, hg, -, -, hm⟩ | ⟨rfl, -⟩⟩ := hs
    · exact hw
    · exact { hw with
        ctx_legal := (legal_gen (c := { s.ctx with n := s.ctx.n + 1 }) hg).mpr
          ((legal_gen hg).mp h.ctx_legal)
        bv_wf := wf_foldl_setBit _ _ h.bv_wf
        bv_bound := bound_foldl_setBit hm _ (liveWords_le_bucketWords h hg) h.bv_bound }
    · exact { hw with }
  | test =>
    obtain ⟨rfl, -⟩ := hs
    exact hw
  | serialize =>
    obtain ⟨-, rfl, -, hr⟩ := hs
    exact { hw with
      buf_wf := wf_writeBytes h.buf_wf _ _
      buf_bound := bound_writeBytes h.buf_bound (by rw [length_liveImage]; exact hr) }
  | deserialize =>
    obtain ⟨-, rfl, -, he⟩ := hs
    obtain ⟨-, -, -, hm⟩ := (imageError_none_iff _ _ _).mp he
    exact { hw with
      ctx_legal := hm
      bv_wf := bucket_wf_load h.bv_wf _ _
      bv_bound := bucket_bound_load h.bv_bound
        (by simpa [imageWords] using wordCount_le_bucketWords hm) }
  | loadFixed =>
    obtain ⟨-, rfl, -, hk, hk', -⟩ := hs
    exact { hw with ctx_legal := legal_fix hk hk' }
  | setbit =>
    obtain ⟨-, rfl, hg, hm⟩ := hs
    exact { hw with
      bv_wf := bucket_wf_write h.bv_wf _ _
      bv_bound := bound_foldl_setBit hm [_] (liveWords_le_bucketWords h hg) h.bv_bound }
  | testbit =>
    obtain ⟨rfl, -⟩ := hs
    exact hw
  | discard =>
    obtain ⟨-, rfl⟩ := hs
    exact { hw with ctx_legal := legal_none }

/-! ## The invariant, operation by operation -/

theorem inv_reset : State.reset.Inv where
  ctx_legal := legal_none
  bv_wf := ⟨List.Pairwise.nil, by simp [State.reset]⟩
  bv_bound := by simp [State.reset]
  buf_wf := List.Pairwise.nil
  buf_bound := by simp [State.reset]
  busy_not_done := fun _ => rfl
  latched := by simp [State.reset]
  result_ok := by simp [State.reset]

theorem inv_advance {s : State} (h : s.Inv) : s.advance.Inv := { h with }

theorem inv_saw {s : State} (h : s.Inv) (r : Reading) : (s.saw r).Inv := { h with }

theorem inv_resetLine (s : State) : s.resetLine.Inv := { inv_reset with }

theorem inv_lostWrite {s : State} (h : s.Inv) : s.lostWrite.Inv := { h with }

theorem inv_poll {s : State} (h : s.Inv) : s.poll.Inv := by
  unfold State.poll
  dsimp only
  split
  · exact { h with }
  · exact inv_saw h _

/-- An issue latches the operand registers and clears DONE (10_state.md R28, R32). -/
theorem inv_issue {s : State} (h : s.Inv) (v : Word) : (s.issue v).Inv := { h with
  busy_not_done := fun _ => rfl
  latched := by
    rintro f hf
    cases hf
    rfl }

/-- Of an idle engine neither DONE nor the latch is spoken of, so operands may change. -/
theorem inv_setOps_of_idle {s : State} (h : s.Inv) (hb : s.busy = false) (o : Operands) :
    { s with ops := o }.Inv := { h with
  latched := by
    rintro f hf
    simp [State.busy] at hb
    simp [hb] at hf }

/-- A host register write keeps the invariant, whichever of the things it can do it does. -/
theorem inv_writeOffset {s : State} (h : s.Inv) (off : Nat) (v : Word) :
    (s.writeOffset off v).Inv := by
  rcases writeOffset_cases s off v with e | ⟨e, -⟩ | ⟨e, -⟩ | ⟨d, a, e⟩ | ⟨d, e⟩ | ⟨o, e, hb⟩ <;> rw [e]
  · exact h
  · exact inv_lostWrite h
  · exact inv_issue h v
  · exact { h with busy_not_done := fun hb => by simp [h.busy_not_done hb] }
  · exact { h with }
  · exact inv_setOps_of_idle h hb o

theorem inv_writeByte {s : State} (h : s.Inv) {i : Nat} (hi : i < Config.params.bufBytes) (b : Byte) :
    (s.writeByte i b).Inv := by
  unfold State.writeByte
  rcases writeIdle_cases s { s with buf := Memory.write s.buf i b } with ⟨e, -⟩ | ⟨e, -⟩ <;> rw [e]
  · exact inv_lostWrite h
  · exact { h with buf_wf := wf_write h.buf_wf i b, buf_bound := bound_write h.buf_bound hi b }

theorem inv_hostAccess {s t : State} {a : Access} (h : s.Inv)
    (ht : hostAccess Config.params s a = .next t) : t.Inv := by
  rcases hostAccess_next ht with ⟨off, v, -, -, -, rfl⟩ | ⟨off, -, -, -, rfl⟩ | ⟨i, b, -, hi, rfl⟩ |
    ⟨i, -, -, rfl⟩
  · exact inv_writeOffset h off v
  · exact inv_saw h _
  · exact inv_writeByte h hi b
  · exact inv_saw h _

/-- The commit ends BUSY, so of the state it leaves only the stores and RESULT are to be shown good. -/
theorem inv_apply_ended {s : State} {w : Staged} (hw : StoresInv w) {e : ErrorCode} {r : Bool}
    (hr : r = true → e = .ok) : ((s.apply w).ended e r).Inv := { hw with
  busy_not_done := by simp [State.ended, State.busy]
  latched := by simp [State.ended]
  result_ok := hr }

theorem inv_ended_false {s : State} (h : s.Inv) (e : ErrorCode) : (s.ended e false).Inv :=
  inv_apply_ended (s := s) (storesInv_of_inv h) (by simp)

theorem inv_exec {i : Instr} {s t : State} (h : s.Inv) (ht : exec i s = .next t) : t.Inv := by
  rcases exec_cases ht with ⟨e, rfl, -⟩ | ⟨w, r, rfl, hs⟩
  · exact inv_ended_false h e
  · exact inv_apply_ended (success_keeps_storesInv h hs) fun _ => rfl

theorem inv_engineTurn {s t : State} (h : s.Inv) (ht : engineTurn exec s = .next t) : t.Inv := by
  rcases engineTurn_next ht with ⟨-, rfl⟩ | ⟨f, i, -, -, rfl⟩ | ⟨f, r, -, -, rfl⟩
  · exact h
  · exact inv_exec h (exec_eq i s)
  · exact inv_ended_false h _

/-- Settles O54: each thing a step can do keeps the invariant; for a command, its successful ends keep the
stores good and its errors change STATUS alone. -/
theorem stepKeepsInvariant : Obligations.StepKeepsInvariant := by
  intro s t h ht
  rcases step_cases ht with ⟨-, -, rfl⟩ | ⟨-, ht⟩ | ⟨a, rest, -, ht⟩ | ⟨rest, -, rfl⟩ | ⟨rest, -, rfl⟩
  · exact h
  · exact inv_engineTurn (inv_advance h) ht
  · exact inv_hostAccess (inv_advance h) ht
  · exact inv_poll (inv_advance h)
  · exact inv_resetLine _

/-- Settles O53. -/
theorem resetMeetsInvariant : Obligations.ResetMeetsInvariant := inv_reset

end Sys2Proof.Proofs

/-! # Registers and host accesses (10_state.md R22 to R33, R48; 20_memory.md R61, R62) -/

namespace Sys2Proof.Proofs

open Sys2Proof.Machine Sys2Proof.Laws

/-! ## Register writes -/

theorem writeIdle_of_busy {s : State} (h : s.busy = true) (t : State) :
    s.writeIdle t = s.lostWrite := by simp [State.writeIdle, h]

theorem writeIdle_of_idle {s : State} (h : s.busy = false) (t : State) : s.writeIdle t = t := by
  simp [State.writeIdle, h]

theorem ofOffset_offset (r : Reg) : Reg.ofOffset r.offset = some r := by cases r <;> rfl

theorem offset_of_ofOffset {off : Nat} {r : Reg} (h : Reg.ofOffset off = some r) :
    off = r.offset := by
  unfold Reg.ofOffset at h
  split at h <;> cases h <;> rfl

theorem offset_le (r : Reg) : r.offset ≤ 0x070 := by cases r <;> decide

/-- No register lies from 0x078 on (10_state.md R22). -/
theorem ofOffset_reserved {off : Nat} (h : 0x078 ≤ off) : Reg.ofOffset off = none := by
  cases ho : Reg.ofOffset off with
  | none => rfl
  | some r =>
    have := offset_of_ofOffset ho
    have := offset_le r
    omega

theorem writeOffset_offset (s : State) (r : Reg) (v : Word) :
    s.writeOffset r.offset v = s.writeReg r v := by
  rw [State.writeOffset, ofOffset_offset]

/-- The step in which the host writes a register. -/
theorem step_writeReg {s : State} (r : Reg) {v : Word} {rest : List Event}
    (h : s.agenda = .access (.w64 r.offset v) :: rest) :
    step s = .next (s.advance.writeReg r v) := by
  have hlt : r.offset < 0x1000 := by have := offset_le r; omega
  have h8 : r.offset % 8 = 0 := by cases r <;> rfl
  rw [step_w64 h hlt h8, writeOffset_offset]

/-- Settles O6: the write to CMD is an issue while idle and a lost write while busy; CMD reads 0. -/
theorem writeToCmdIssues : Obligations.WriteToCmdIssues := by
  refine fun s rest => ⟨fun v ha hb => ?_, fun v ha hb => ?_, fun ha => ?_⟩
  · rw [step_writeReg .cmd ha, State.writeReg, writeIdle_of_idle (s := s.advance) hb,
      advance_of_cons ha]
    rfl
  · rw [step_writeReg .cmd ha, State.writeReg, writeIdle_of_busy (s := s.advance) hb,
      advance_of_cons ha]
    rfl
  · rw [step_r64 ha (by decide) (by decide), advance_of_cons ha]
    rfl

/-- The operand registers after a write of `v` at `off` (10_state.md R31). -/
def operandsWritten (o : Operands) (off : Nat) (v : Word) : Operands where
  argM := if off = 0x020 then v else o.argM
  argK := if off = 0x028 then v else o.argK
  argPos := if off = 0x030 then v else o.argPos
  addr := if off = 0x038 then v else o.addr
  len := if off = 0x040 then v else o.len

theorem writeOffset_operand (s : State) {off : Nat} (h : off ∈ [0x020, 0x028, 0x030, 0x038, 0x040])
    (v : Word) :
    s.writeOffset off v = s.writeIdle { s with ops := operandsWritten s.ops off v } := by
  simp only [List.mem_cons, List.not_mem_nil, or_false] at h
  rcases h with rfl | rfl | rfl | rfl | rfl <;> rfl

/-- Settles O43: an operand register's write is a write of an idle engine, so it is lost while busy. -/
theorem operandRegisterWrites : Obligations.OperandRegisterWrites := by
  intro s off v rest hoff ha
  have hrange : off < 0x1000 ∧ off % 8 = 0 := by
    simp only [List.mem_cons, List.not_mem_nil, or_false] at hoff
    omega
  have hstep := step_w64 ha hrange.1 hrange.2
  rw [writeOffset_operand _ hoff] at hstep
  refine ⟨fun hb => ?_, fun hb => ⟨operandsWritten s.ops off v, ?_, rfl, rfl, rfl, rfl, rfl⟩⟩
  · rw [hstep, writeIdle_of_busy (s := s.advance) hb, advance_of_cons ha]
    rfl
  · rw [hstep, writeIdle_of_idle (s := s.advance) hb, advance_of_cons ha]

theorem writeOffset_readOnly (s : State) {off : Nat}
    (h : off ∈ [0x000, 0x048, 0x050, 0x058, 0x060, 0x068, 0x070] ∨ 0x078 ≤ off) (v : Word) :
    s.writeOffset off v = s := by
  rcases h with h | h
  · simp only [List.mem_cons, List.not_mem_nil, or_false] at h
    rcases h with rfl | rfl | rfl | rfl | rfl | rfl | rfl <;> rfl
  · rw [State.writeOffset, ofOffset_reserved h]

/-- Settles O44: at a read-only or reserved offset the write keeps the advanced state. -/
theorem readOnlyWritesAreIgnored : Obligations.ReadOnlyWritesAreIgnored := by
  intro s off v rest hlt h8 hoff ha
  rw [step_w64 ha hlt h8, writeOffset_readOnly _ hoff, advance_of_cons ha]

/-! ## STATUS -/

theorem status_busy (s : State) : s.status.getLsbD 0 = s.busy := by
  rw [State.status, BitVec.getLsbD_append]
  simp

theorem status_done (s : State) : s.status.getLsbD 1 = s.done := by
  rw [State.status, BitVec.getLsbD_append, BitVec.getLsbD_append]
  simp

theorem status_result (s : State) : s.status.getLsbD 2 = s.result := by
  rw [State.status, BitVec.getLsbD_append, BitVec.getLsbD_append, BitVec.getLsbD_append]
  simp

theorem status_awb (s : State) : s.status.getLsbD 3 = s.awbRead := by
  rw [State.status, BitVec.getLsbD_append, BitVec.getLsbD_append, BitVec.getLsbD_append,
    BitVec.getLsbD_append]
  simp

theorem extractLsb'_status (s : State) {start len : Nat} (h : 4 ≤ start) :
    s.status.extractLsb' start len =
      (0#48 ++ s.err.code ++ 0#2 ++ s.ctx.mode.bits).extractLsb' (start - 4) len := by
  rw [State.status, BitVec.extractLsb'_append_eq_of_le (by omega),
    BitVec.extractLsb'_append_eq_of_le (by omega), BitVec.extractLsb'_append_eq_of_le (by omega),
    BitVec.extractLsb'_append_eq_of_le (by omega)]
  rfl

theorem status_mode (s : State) : s.status.extractLsb' 4 2 = s.ctx.mode.bits := by
  rw [extractLsb'_status s (by decide), BitVec.extractLsb'_append_eq_right]

theorem status_reserved (s : State) : s.status.extractLsb' 6 2 = 0 := by
  rw [extractLsb'_status s (by decide), BitVec.extractLsb'_append_eq_of_le (by decide),
    BitVec.extractLsb'_append_eq_right]
  rfl

theorem status_err (s : State) : s.status.extractLsb' 8 8 = s.err.code := by
  rw [extractLsb'_status s (by decide), BitVec.extractLsb'_append_eq_of_le (by decide),
    BitVec.extractLsb'_append_eq_of_le (by decide), BitVec.extractLsb'_append_eq_right]

theorem status_high (s : State) : s.status.extractLsb' 16 48 = 0 := by
  rw [extractLsb'_status s (by decide), BitVec.extractLsb'_append_eq_of_le (by decide),
    BitVec.extractLsb'_append_eq_of_le (by decide), BitVec.extractLsb'_append_eq_left]
  rfl

/-- Settles O41: each field by the place STATUS puts it in; a write to STATUS is `writeStatus`. -/
theorem statusFields : Obligations.StatusFields := by
  refine fun s => ⟨rfl, status_busy s, status_done s, status_result s, fun hf => ?_,
    fun f hf => ?_, ?_, status_reserved s, status_err s, status_high s, fun v rest ha => ?_⟩
  · rw [status_awb, awbRead_idle hf]
  · rw [status_awb, awbRead_busy hf]
  · rw [status_mode]
    cases s.ctx.mode <;> rfl
  · rw [step_writeReg .status ha, State.writeReg, writeStatus_eq, advance_of_cons ha]

/-! ## Accesses that have no step -/

theorem hostAccess_unmapped {p : Params} {a : Access} (h : window p a.addr = .unmapped) (s : State) :
    hostAccess p s a = .fault (.unmapped a.addr) := by
  cases a <;> simp only [Access.addr] at h ⊢ <;> simp only [hostAccess, wordAccess, byteAccess, h]

/-- Only a 64-bit access at a multiple of 8 has a step in the register window (10_state.md R23). -/
theorem hostAccess_register_refused {p : Params} {a : Access} {off : Nat}
    (h : window p a.addr = .register off)
    (hno : (∀ v, a ≠ .w64 a.addr v) ∧ a ≠ .r64 a.addr ∨ off % 8 ≠ 0) (s : State) :
    hostAccess p s a = .refused (.registerAccess a.addr) := by
  cases a <;> simp only [Access.addr] at h hno ⊢ <;>
    simp only [hostAccess, wordAccess, byteAccess, h]
  case w64 a v =>
    have h8 : off % 8 ≠ 0 := hno.resolve_left fun hn => hn.1 v rfl
    rw [if_neg h8]
  case r64 a =>
    have h8 : off % 8 ≠ 0 := hno.resolve_left fun hn => hn.2 rfl
    rw [if_neg h8]

/-- Only a one-byte access has a step in BUF (20_memory.md R62). -/
theorem hostAccess_buffer_refused {p : Params} {a : Access} {i : Nat}
    (h : window p a.addr = .buffer i) (hw : ∀ b, a ≠ .w8 a.addr b) (hr : a ≠ .r8 a.addr) (s : State) :
    hostAccess p s a = .refused (.wideBuffer a.addr) := by
  cases a <;> simp only [Access.addr] at h hw hr ⊢ <;>
    simp only [hostAccess, wordAccess, byteAccess, h]
  case w8 a b => exact absurd rfl (hw b)
  case r8 a => exact absurd rfl hr

/-- Settles O50: the step is the host access, and the window its address lies in decides the stop. -/
theorem unsupportedAccessesHaveNoStep : Obligations.UnsupportedAccessesHaveNoStep := by
  intro s a rest ha
  rw [step_of_access ha]
  refine ⟨fun hlo hout => ?_, fun hlt hw hr => ?_, fun hlt h8 => ?_, fun hlo hhi hw hr => ?_⟩
  · exact hostAccess_unmapped (window_unmapped hlo hout) _
  · exact hostAccess_register_refused (window_register hlt) (.inl ⟨hw, hr⟩) _
  · exact hostAccess_register_refused (window_register hlt) (.inr h8) _
  · obtain ⟨i, hi⟩ := Nat.exists_eq_add_of_le hlo
    have hwin : window Config.params a.addr = .buffer i := hi ▸ window_buffer (by omega)
    exact hostAccess_buffer_refused hwin hw hr _

/-! ## Reset values -/

/-- Settles O51: each value is what `State.reset` holds, read through its view. -/
theorem resetValues : Obligations.ResetValues :=
  ⟨by decide, by decide, rfl, rfl, rfl, rfl, rfl, rfl, rfl, rfl, rfl, fun _ => rfl⟩

/-! ## The latch -/

/-- With a command in flight the operand registers are no operands: changing them changes no completion. -/
theorem completion_setOps {s : State} {f : InFlight} (hf : s.inFlight = some f) (o : Operands)
    (i : Instr) : completion { s with ops := o } i = completion s i := by
  have hops : State.operands { s with ops := o } = s.operands := by simp only [State.operands, hf]
  exact completion_congr (s := { s with ops := o }) (t := s) rfl rfl hops i

/-- Settles O13: the completion is the same, and the commit does not touch the operand registers. -/
theorem latchedOperandsAreUsed : Obligations.LatchedOperandsAreUsed := by
  intro i s t f o hf ht
  rw [exec_eq, completion_setOps hf, exec_next ht]
  rfl

end Sys2Proof.Proofs

/-! # The dead stores (10_state.md R40, R41, R48; 93_implementation_defined.md I10) -/

namespace Sys2Proof.Proofs

open Sys2Proof.Machine Sys2Proof.Laws

/-- The state with other contents of BV and FA: what `State.LiveEq` lets differ. -/
def withStores (s : State) (b : Buckets) (f : Vector Byte 256) : State := { s with bv := b, fa := f }

theorem exists_withStores {s t : State} (h : s.LiveEq t) : ∃ b f, t = withStores s b f :=
  ⟨t.bv, t.fa, (congrArg (withStores · t.bv t.fa) h.rest :)⟩

/-- What does not look at BV and FA is the same of both states. -/
theorem liveEq_view {α : Type} {s t : State} (h : s.LiveEq t) (g : State → α)
    (hg : ∀ b f, g (withStores s b f) = g s) : g t = g s := by
  obtain ⟨b, f, rfl⟩ := exists_withStores h
  exact hg b f

theorem liveEq_refl (s : State) : s.LiveEq s := ⟨rfl, fun _ _ => rfl, fun _ => rfl⟩

/-- In GEN mode the two stores read alike below W(m). -/
theorem liveEq_read {s t : State} (h : s.LiveEq t) (hm : s.ctx.mode = .gen) :
    ∀ w < wordCount s.ctx.m, Buckets.read s.bv w = Buckets.read t.bv w :=
  fun w hw => h.words w ⟨hm, hw⟩

/-! ## What is read and written of the stores is live -/

theorem wordIndex_lt {m : Word} (hm : m ≠ 0) (pos : Word) : bitIndex m pos / 64 < wordCount m :=
  wordCount_le (bitIndex_lt hm pos)

theorem testBit_congr {m : Word} (hm : m ≠ 0) {a b : Buckets}
    (h : ∀ w < wordCount m, Buckets.read a w = Buckets.read b w) (pos : Word) :
    testBit m a pos = testBit m b pos := by
  rw [testBit_eq, testBit_eq, bvBit, bvBit, h _ (wordIndex_lt hm pos)]

theorem setBit_congr {m : Word} (hm : m ≠ 0) {a b : Buckets}
    (h : ∀ w < wordCount m, Buckets.read a w = Buckets.read b w) (pos : Word) :
    ∀ w < wordCount m, Buckets.read (setBit m a pos) w = Buckets.read (setBit m b pos) w := by
  intro w hw
  simp only [setBit, bucket_write_read, h _ (wordIndex_lt hm pos), h w hw]

theorem foldl_setBit_congr {m : Word} (hm : m ≠ 0) (ps : List Word) {a b : Buckets}
    (h : ∀ w < wordCount m, Buckets.read a w = Buckets.read b w) :
    ∀ w < wordCount m,
      Buckets.read (ps.foldl (setBit m) a) w = Buckets.read (ps.foldl (setBit m) b) w := by
  induction ps generalizing a b with
  | nil => exact h
  | cons p ps ih => exact ih (setBit_congr hm h p)

/-- Cleared words are 0, whatever they were. -/
theorem clear_congr (a b : Buckets) (n : Nat) :
    ∀ w < n, Buckets.read (Buckets.clear a n) w = Buckets.read (Buckets.clear b n) w := by
  intro w hw
  rw [bucket_clear_read, bucket_clear_read, if_pos hw, if_pos hw]

/-- Loaded words are the image's, whatever they were. -/
theorem load_congr (a b : Buckets) (img : List Byte) (n : Nat) :
    ∀ w < n, Buckets.read (Buckets.load a 0 (imageWords img n)) w =
      Buckets.read (Buckets.load b 0 (imageWords img n)) w := by
  intro w hw
  rw [load_imageWords_read, load_imageWords_read, if_pos hw, if_pos hw]

theorem genTest_congr {s t : State} (h : s.LiveEq t) (hm : s.ctx.mode = .gen) (hm0 : s.ctx.m ≠ 0)
    (p : Params) (key : List Byte) : genTest p s key = genTest p t key := by
  have htest := funext (testBit_congr hm0 (liveEq_read h hm))
  obtain ⟨b, f, rfl⟩ := exists_withStores h
  exact congrArg (List.all (genPositions p key s.ctx.k)) htest

theorem fixedTest_congr {s t : State} (h : s.LiveEq t) (hm : s.ctx.mode = .fix) (p : Params)
    (key : List Byte) : fixedTest p s key = fixedTest p t key := by
  have hfa := h.array hm
  obtain ⟨b, f, rfl⟩ := exists_withStores h
  rw [fixedTest, hfa]
  rfl

theorem fixedAdd_congr {s t : State} (h : s.LiveEq t) (hm : s.ctx.mode = .fix) (p : Params)
    (key : List Byte) : fixedAdd p s key = fixedAdd p t key := by
  have hfa := h.array hm
  obtain ⟨b, f, rfl⟩ := exists_withStores h
  rw [fixedAdd, hfa]
  rfl

theorem words_congr {n : Nat} {a b : Buckets}
    (h : ∀ w < n, Buckets.read a w = Buckets.read b w) : Buckets.words a n = Buckets.words b n :=
  List.map_congr_left fun w hw => h w (List.mem_range.mp hw)

/-- The image of the live filter holds its live words, or FA in FIX mode, and nothing dead. -/
theorem liveImage_congr {s t : State} (h : s.LiveEq t) (hm : s.ctx.mode ≠ .none) (p : Params) :
    liveImage p s = liveImage p t := by
  have hctx : t.ctx = s.ctx := liveEq_view h State.ctx fun _ _ => rfl
  cases hmode : s.ctx.mode with
  | none => exact absurd hmode hm
  | gen =>
    have hpre : imagePrefix s.ctx s.bv = imagePrefix s.ctx t.bv := by
      rw [imagePrefix, imagePrefix, words_congr (liveEq_read h hmode)]
    rw [liveImage_gen hmode, liveImage_gen (hctx ▸ hmode), hctx, generalImage, generalImage, hpre]
  | fix => rw [liveImage_fix hmode, liveImage_fix (hctx ▸ hmode), h.array hmode]

/-! ## Completions that agree -/

/-- Staged writes that agree in everything but the dead stores. -/
structure StagedAgree (v w : Staged) : Prop where
  ctx : w.ctx = v.ctx
  buf : w.buf = v.buf
  outLen : w.outLen = v.outLen
  words : v.ctx.mode = .gen →
    ∀ x < wordCount v.ctx.m, Buckets.read v.bv x = Buckets.read w.bv x
  array : v.ctx.mode = .fix → v.fa = w.fa

/-- Completions that no host can tell apart. -/
structure CompletionAgree (c d : Completion) : Prop where
  code : d.code = c.code
  result : d.result = c.result
  staged : StagedAgree c.staged d.staged

theorem stagedAgree_of_liveEq {s t : State} (h : s.LiveEq t) : StagedAgree s.staged t.staged where
  ctx := liveEq_view h State.ctx fun _ _ => rfl
  buf := liveEq_view h State.buf fun _ _ => rfl
  outLen := liveEq_view h State.outLen fun _ _ => rfl
  words := liveEq_read h
  array := h.array

theorem agree_raise {s t : State} (h : s.LiveEq t) (e : ErrorCode) :
    CompletionAgree (raise s e) (raise t e) := ⟨rfl, rfl, stagedAgree_of_liveEq h⟩

theorem agree_succeed {v w : Staged} (h : StagedAgree v w) :
    CompletionAgree (succeed v) (succeed w) := ⟨rfl, rfl, h⟩

theorem agree_answer {s t : State} (h : s.LiveEq t) {q r : Bool} (hr : q = r) :
    CompletionAgree (answer s q) (answer t r) := ⟨rfl, hr.symm, stagedAgree_of_liveEq h⟩

/-- One check of a command: both sides branch alike. -/
theorem agree_ite {q : Prop} [Decidable q] {c c' d d' : Completion}
    (hc : q → CompletionAgree c d) (hc' : ¬ q → CompletionAgree c' d') :
    CompletionAgree (if q then c else c') (if q then d else d') := by
  split
  · exact hc ‹_›
  · exact hc' ‹_›

section Commands

variable {s : State} {b : Buckets} {f : Vector Byte 256}

theorem agree_bitChecks (h : s.LiveEq (withStores s b f)) {c d : Completion}
    (hcd : s.ctx.mode = .gen → s.ctx.m ≠ 0 → CompletionAgree c d) :
    CompletionAgree (bitChecks s c) (bitChecks (withStores s b f) d) := by
  refine agree_ite (fun _ => agree_raise h _) fun hnone => ?_
  refine agree_ite (fun _ => agree_raise h _) fun hfix => ?_
  refine agree_ite (fun _ => agree_raise h _) fun hm => hcd ?_ hm
  cases hmode : s.ctx.mode <;> simp_all

theorem agree_keyChecks (h : s.LiveEq (withStores s b f)) (p : Params)
    {empty gen fix empty' gen' fix' : Completion} (hempty : CompletionAgree empty empty')
    (hgen : s.ctx.mode = .gen → s.ctx.m ≠ 0 → CompletionAgree gen gen')
    (hfix : s.ctx.mode = .fix → CompletionAgree fix fix') :
    CompletionAgree (keyChecks p s empty gen fix)
      (keyChecks p (withStores s b f) empty' gen' fix') := by
  refine agree_ite (fun _ => agree_raise h _) fun hnone => ?_
  refine agree_ite (fun _ => hempty) fun _ => ?_
  refine agree_ite (fun _ => agree_raise h _) fun _ => ?_
  refine agree_ite (fun hg => ?_) fun hng => hfix ?_
  · exact agree_ite (fun _ => agree_raise h _) fun hm => hgen hg hm
  · cases hmode : s.ctx.mode <;> simp_all

theorem agree_fixedChecks (h : s.LiveEq (withStores s b f)) {c d : Completion}
    (hcd : CompletionAgree c d) :
    CompletionAgree (fixedChecks s c) (fixedChecks (withStores s b f) d) :=
  agree_ite (fun _ => agree_raise h _) fun _ =>
    agree_ite (fun _ => agree_raise h _) fun _ => hcd

/-- Every command ends alike: what it reads is live, and what it makes live it has written. -/
theorem agree_completion (h : s.LiveEq (withStores s b f)) (i : Instr) :
    CompletionAgree (completion s i) (completion (withStores s b f) i) := by
  have hst := stagedAgree_of_liveEq h
  cases i with
  | construct =>
    refine agree_ite (fun _ => agree_raise h _) fun _ => ?_
    refine agree_ite (fun _ => agree_raise h _) fun _ => ?_
    refine agree_ite (fun _ => agree_raise h _) fun _ => agree_succeed ?_
    exact { ctx := rfl, buf := rfl, outLen := rfl, words := fun _ => clear_congr _ _ _, array := nofun }
  | constructFixed =>
    exact agree_fixedChecks h (agree_succeed
      { ctx := rfl, buf := rfl, outLen := rfl, words := nofun, array := fun _ => rfl })
  | add =>
    refine agree_keyChecks h _ (agree_succeed hst) (fun hg hm => agree_succeed ?_)
      fun hf => agree_succeed ?_
    · exact { ctx := rfl, buf := rfl, outLen := rfl
              words := fun _ => foldl_setBit_congr hm _ (liveEq_read h hg)
              array := fun hf => absurd (hg.symm.trans hf) (by decide) }
    · exact { hst with array := fun _ => fixedAdd_congr h hf _ _ }
  | test =>
    exact agree_keyChecks h _ (agree_answer h rfl)
      (fun hg hm => agree_answer h (genTest_congr h hg hm _ _))
      fun hf => agree_answer h (fixedTest_congr h hf _ _)
  | serialize =>
    refine agree_ite (fun _ => agree_raise h _) fun hm => ?_
    refine agree_ite (fun _ => agree_raise h _) fun _ => agree_succeed ?_
    exact { hst with
      buf := congrArg (Memory.writeBytes s.buf s.operands.addr.toNat) (liveImage_congr h hm _).symm
      outLen := rfl }
  | deserialize =>
    refine agree_ite (fun _ => agree_raise h _) fun _ => ?_
    change CompletionAgree _ (match imageError Config.params s.image s.operands.len.toNat with
      | some e => raise (withStores s b f) e
      | none => succeed (loadImage (withStores s b f) s.image))
    cases imageError Config.params s.image s.operands.len.toNat with
    | some e => exact agree_raise h e
    | none =>
      exact agree_succeed
        { ctx := rfl, buf := rfl, outLen := rfl, words := fun _ => load_congr _ _ _ _, array := nofun }
  | loadFixed =>
    refine agree_fixedChecks h ?_
    refine agree_ite (fun _ => agree_raise h _) fun _ => ?_
    refine agree_ite (fun _ => agree_raise h _) fun _ => agree_succeed ?_
    exact { ctx := rfl, buf := rfl, outLen := rfl, words := nofun, array := fun _ => rfl }
  | setbit =>
    refine agree_bitChecks h fun hg hm => agree_succeed ?_
    exact { hst with words := fun _ => setBit_congr hm (liveEq_read h hg) _ }
  | testbit =>
    exact agree_bitChecks h fun hg hm =>
      agree_answer h (testBit_congr hm (liveEq_read h hg) _)
  | discard =>
    exact agree_succeed { ctx := rfl, buf := rfl, outLen := rfl, words := nofun, array := nofun }

end Commands

theorem agree_applied {s t : State} (h : s.LiveEq t) {c d : Completion} (hcd : CompletionAgree c d) :
    StagedAgree (c.applied s) (d.applied t) := by
  unfold Completion.applied
  rw [hcd.code]
  split
  · exact hcd.staged
  · exact stagedAgree_of_liveEq h

theorem liveEq_commit {s t : State} (h : s.LiveEq t) {c d : Completion} (hcd : CompletionAgree c d) :
    (commit c s).LiveEq (commit d t) := by
  have hst := agree_applied h hcd
  obtain ⟨b, f, rfl⟩ := exists_withStores h
  refine ⟨?_, fun w hw => hst.words hw.1 w hw.2, hst.array⟩
  simp only [commit, State.apply, hst.ctx, hst.buf, hst.outLen, hcd.code, hcd.result]
  rfl

/-! ## The engine's turn -/

theorem engineTurn_of_idle {s : State} (h : s.inFlight = none) : engineTurn exec s = .next s := by
  rw [engineTurn, h]

theorem engineTurn_of_legal {s : State} {f : InFlight} {i : Instr} (h : s.inFlight = some f)
    (hd : decode f.word = .ok i) : engineTurn exec s = .next (commit (completion s i) s) := by
  rw [engineTurn, h, ← exec_eq]
  simp only [hd]

theorem engineTurn_of_illegal {s : State} {f : InFlight} {r : Illegal} (h : s.inFlight = some f)
    (hd : decode f.word = .error r) :
    engineTurn exec s = .next (commit (raise s .illegalCommand) s) := by
  rw [engineTurn, h]
  simp only [hd]

theorem liveEq_engineTurn {s t s' : State} (h : s.LiveEq t) (hs : engineTurn exec s = .next s') :
    ∃ t', engineTurn exec t = .next t' ∧ s'.LiveEq t' := by
  have hfly : t.inFlight = s.inFlight := liveEq_view h State.inFlight fun _ _ => rfl
  rcases engineTurn_next hs with ⟨hf, rfl⟩ | ⟨f, i, hf, hd, rfl⟩ | ⟨f, r, hf, hd, rfl⟩
  · exact ⟨t, engineTurn_of_idle (hfly.trans hf), h⟩
  · refine ⟨_, engineTurn_of_legal (hfly.trans hf) hd, liveEq_commit h ?_⟩
    obtain ⟨b, f, rfl⟩ := exists_withStores h
    exact agree_completion h i
  · refine ⟨_, engineTurn_of_illegal (hfly.trans hf) hd, ?_⟩
    rw [← commit_raise_ended]
    exact liveEq_commit h (agree_raise h _)

/-! ## Everything that leaves the stores alone -/

/-- An update of the state that neither looks at BV and FA nor changes them or the context. -/
structure IgnoresStores (g : State → State) : Prop where
  commutes : ∀ s b f, g (withStores s b f) = withStores (g s) b f
  ctx : ∀ s, (g s).ctx = s.ctx

theorem liveEq_map {g : State → State} (hg : IgnoresStores g) {s t : State} (h : s.LiveEq t) :
    (g s).LiveEq (g t) := by
  have hown : g s = withStores (g s) s.bv s.fa := hg.commutes s s.bv s.fa
  have hbv : (g s).bv = s.bv := (congrArg State.bv hown :)
  have hfa : (g s).fa = s.fa := (congrArg State.fa hown :)
  obtain ⟨b, f, rfl⟩ := exists_withStores h
  rw [hg.commutes]
  refine ⟨rfl, fun w hw => ?_, fun hm => ?_⟩
  · rw [State.liveWord, hg.ctx] at hw
    rw [hbv]
    exact h.words w hw
  · rw [hg.ctx] at hm
    rw [hfa]
    exact h.array hm

theorem ignoresStores_advance : IgnoresStores State.advance := ⟨fun _ _ _ => rfl, fun _ => rfl⟩

theorem readOffset_withStores (p : Params) (s : State) (b : Buckets) (f : Vector Byte 256)
    (off : Nat) : (withStores s b f).readOffset p off = s.readOffset p off := by
  unfold State.readOffset
  cases Reg.ofOffset off with
  | none => rfl
  | some r => cases r <;> rfl

theorem ignoresStores_readOffset (p : Params) (off : Nat) :
    IgnoresStores fun s => s.saw (.word (s.readOffset p off)) :=
  ⟨fun s b f => by rw [readOffset_withStores]; rfl, fun _ => rfl⟩

theorem ignoresStores_readByte (i : Nat) : IgnoresStores fun s => s.saw (.byte (s.readByte i)) :=
  ⟨fun _ _ _ => rfl, fun _ => rfl⟩

/-- A write that an idle engine takes and a busy one loses. -/
theorem ignoresStores_writeIdle {g : State → State} (hg : IgnoresStores g) :
    IgnoresStores fun s => s.writeIdle (g s) where
  commutes s b f := by
    rw [hg.commutes]
    cases hb : s.busy with
    | true => rw [writeIdle_of_busy hb, writeIdle_of_busy (s := withStores s b f) hb]; rfl
    | false => rw [writeIdle_of_idle hb, writeIdle_of_idle (s := withStores s b f) hb]
  ctx s := by
    rcases writeIdle_cases s (g s) with ⟨e, -⟩ | ⟨e, -⟩ <;> rw [e]
    · rfl
    · exact hg.ctx s

theorem ignoresStores_writeReg (r : Reg) (v : Word) : IgnoresStores fun s => s.writeReg r v := by
  cases r with
  | status =>
    exact ⟨fun s b f => by simp only [State.writeReg, writeStatus_eq]; rfl,
      fun s => by simp only [State.writeReg, writeStatus_eq]⟩
  | cmd => exact ignoresStores_writeIdle (g := (State.issue · v)) ⟨fun _ _ _ => rfl, fun _ => rfl⟩
  | argM | argK | argPos | addr | len =>
    exact ignoresStores_writeIdle (g := fun s => { s with ops := _ }) ⟨fun _ _ _ => rfl, fun _ => rfl⟩
  | id | irqEn | outLen | m | k | n | cap | bufsz => exact ⟨fun _ _ _ => rfl, fun _ => rfl⟩

theorem ignoresStores_writeOffset (off : Nat) (v : Word) :
    IgnoresStores fun s => s.writeOffset off v := by
  unfold State.writeOffset
  cases Reg.ofOffset off with
  | none => exact ⟨fun _ _ _ => rfl, fun _ => rfl⟩
  | some r => exact ignoresStores_writeReg r v

theorem ignoresStores_writeByte (i : Nat) (x : Byte) : IgnoresStores fun s => s.writeByte i x :=
  ignoresStores_writeIdle (g := fun s => { s with buf := Memory.write s.buf i x })
    ⟨fun _ _ _ => rfl, fun _ => rfl⟩

theorem ignoresStores_poll : IgnoresStores State.poll where
  commutes s b f := by
    change (if s.status.getLsbD 0 then _ else _) = withStores (if s.status.getLsbD 0 then _ else _) b f
    split <;> rfl
  ctx s := by
    unfold State.poll
    dsimp only
    split <;> rfl

/-! ## The step -/

theorem liveEq_wordAccess {p : Params} {a : Nat} {g g' : Nat → State} {s' : State}
    (h : ∀ off, (g off).LiveEq (g' off)) (hs : wordAccess p a g = .next s') :
    ∃ t', wordAccess p a g' = .next t' ∧ s'.LiveEq t' := by
  obtain ⟨hlt, h8, rfl⟩ := wordAccess_next hs
  exact ⟨g' a, by rw [wordAccess, window_register hlt]; exact if_pos h8, h a⟩

theorem liveEq_byteAccess {p : Params} {a : Nat} {g g' : Nat → State} {s' : State}
    (h : ∀ i, (g i).LiveEq (g' i)) (hs : byteAccess p a g = .next s') :
    ∃ t', byteAccess p a g' = .next t' ∧ s'.LiveEq t' := by
  obtain ⟨i, rfl, hi, rfl⟩ := byteAccess_next hs
  exact ⟨g' i, by rw [byteAccess, window_buffer hi], h i⟩

theorem liveEq_hostAccess {p : Params} {s t s' : State} {a : Access} (h : s.LiveEq t)
    (hs : hostAccess p s a = .next s') : ∃ t', hostAccess p t a = .next t' ∧ s'.LiveEq t' := by
  cases a with
  | w64 a v => exact liveEq_wordAccess (fun off => liveEq_map (ignoresStores_writeOffset off v) h) hs
  | r64 a => exact liveEq_wordAccess (fun off => liveEq_map (ignoresStores_readOffset p off) h) hs
  | w8 a x => exact liveEq_byteAccess (fun i => liveEq_map (ignoresStores_writeByte i x) h) hs
  | r8 a => exact liveEq_byteAccess (fun i => liveEq_map (ignoresStores_readByte i) h) hs
  | otherWidth a =>
    rcases hostAccess_next hs with ⟨_, _, ha, -⟩ | ⟨_, ha, -⟩ | ⟨_, _, ha, -⟩ | ⟨_, ha, -⟩ <;> cases ha

/-- Settles O55: both states have the same event next, and every event keeps the relation. Commands read only
live words and arrays; a reset leaves the same stores in both. -/
theorem deadStoresAreNeverObservable : Obligations.DeadStoresAreNeverObservable := by
  intro s t s' h hs
  have hadv := liveEq_map ignoresStores_advance h
  have hagenda : t.agenda = s.agenda := liveEq_view h State.agenda fun _ _ => rfl
  have hbusy : t.busy = s.busy := liveEq_view h State.busy fun _ _ => rfl
  unfold step stepOn at hs ⊢
  rw [hagenda, hbusy]
  cases hev : s.agenda with
  | nil =>
    rw [hev] at hs
    cases hb : s.busy with
    | true =>
      rw [hb] at hs
      exact liveEq_engineTurn hadv hs
    | false =>
      rw [hb] at hs
      cases hs
      exact ⟨t, rfl, h⟩
  | cons e rest =>
    rw [hev] at hs
    cases e with
    | access a => exact liveEq_hostAccess hadv hs
    | wait =>
      cases hs
      exact ⟨_, rfl, liveEq_map ignoresStores_poll hadv⟩
    | engine => exact liveEq_engineTurn hadv hs
    | reset =>
      cases hs
      obtain ⟨b, f, rfl⟩ := exists_withStores h
      exact ⟨_, rfl, liveEq_refl _⟩

end Sys2Proof.Proofs

/-! # The general image (20_memory.md R70, R73) -/

namespace Sys2Proof.Proofs

open Sys2Proof.Machine Sys2Proof.Laws

/-- What stands before the checksum is read of the image as of `imagePrefix`. -/
theorem slice_generalImage (p : Params) {c : Ctx} (bv : Buckets) {i n : Nat}
    (h : i + n ≤ 24 + 8 * wordCount c.m) :
    slice (generalImage p c bv) i n = slice (imagePrefix c bv) i n :=
  slice_append_left (by rwa [length_imagePrefix])

theorem slice_generalImage_word (p : Params) {c : Ctx} (bv : Buckets) {w : Nat}
    (h : w < wordCount c.m) :
    slice (generalImage p c bv) (24 + 8 * w) 8 = be8 (Buckets.read bv w) := by
  rw [slice_generalImage p bv (by omega), slice_imagePrefix_word c bv h]

/-- The last 32 bytes of the image are the digest of everything before them (20_memory.md R72). -/
theorem slice_generalImage_checksum (p : Params) (c : Ctx) (bv : Buckets) :
    slice (generalImage p c bv) (24 + 8 * wordCount c.m) 32 =
      (p.hash ((generalImage p c bv).take (24 + 8 * wordCount c.m))).toList := by
  rw [slice, drop_generalImage, take_generalImage, digest, List.take_of_length_le (by simp)]

/-- Settles O31: header and words are fields of `imagePrefix`, and the checksum is what follows it. -/
theorem generalImageLayout : Obligations.GeneralImageLayout := by
  intro p c bv
  refine ⟨length_generalImage p c bv, ?_, ?_, ?_, fun w hw => slice_generalImage_word p bv hw,
    slice_generalImage_checksum p c bv⟩
  · rw [slice_generalImage p bv (by omega), slice_imagePrefix_m]
  · rw [slice_generalImage p bv (by omega), slice_imagePrefix_k]
  · rw [slice_generalImage p bv (by omega), slice_imagePrefix_n]

theorem getElem?_slice (x : List Byte) (i : Nat) {n j : Nat} (h : j < n) :
    (slice x i n)[j]? = x[i + j]? := by
  rw [slice, List.getElem?_take_of_lt h, List.getElem?_drop]

/-- Bit b of a word is bit b mod 8 of its byte b / 8, which be_8 puts at place 7 - b / 8. -/
theorem be8_holds_bit (v : Word) {b : Nat} (h : b < 64) :
    ∃ x, (be8 v)[7 - b / 8]? = some x ∧ x.getLsbD (b % 8) = v.getLsbD b := by
  refine ⟨_, getElem?_be8 v (by omega), ?_⟩
  have hlow : b % 8 < 8 := Nat.mod_lt b (by decide)
  have hplace : 8 * (7 - (7 - b / 8)) + b % 8 = b := by omega
  rw [BitVec.getLsbD_extractLsb', hplace, decide_eq_true hlow, Bool.true_and]

/-- Settles O32: the word of bit b is a field of the image, and be_8 places the bit in that field. -/
theorem filterBitInTheImage : Obligations.FilterBitInTheImage := by
  intro p c bv b hb
  have hword : b / 64 < wordCount c.m := by
    unfold wordCount
    omega
  have hplace : 24 + 8 * (b / 64) + 7 - b % 64 / 8 = 24 + 8 * (b / 64) + (7 - b % 64 / 8) := by omega
  rw [hplace, ← getElem?_slice (n := 8) _ _ (by omega), slice_generalImage_word p bv hword]
  exact be8_holds_bit _ (Nat.mod_lt b (by decide))

end Sys2Proof.Proofs

/-! # Register reads (10_state.md R22 to R38; 20_memory.md R79) -/

namespace Sys2Proof.Proofs

open Sys2Proof.Machine Sys2Proof.Laws

/-! ## What a read of each offset returns -/

theorem readReg_advance (p : Params) (s : State) (r : Reg) :
    s.advance.readReg p r = s.readReg p r := by cases r <;> rfl

/-- At a register's offset a read step returns that register. -/
theorem readOffset_advance {s : State} (r : Reg) {off : Nat} (h : off = r.offset) :
    s.advance.readOffset Config.params off = s.readReg Config.params r := by
  rw [h, State.readOffset, ofOffset_offset, ← readReg_advance]

theorem readOffset_reserved (p : Params) (s : State) {off : Nat} (h : 0x078 ≤ off) :
    s.readOffset p off = 0 := by
  rw [State.readOffset, ofOffset_reserved h]

theorem irqEn_eq (s : State) : s.irqEn = if s.doneIeRead then 1 else 0 := by
  unfold State.irqEn
  cases s.doneIeRead <;> rfl

/-- CAP reads M_MAX itself: it fits the register (A5). -/
theorem readReg_cap_toNat (p : Params) (s : State) : (s.readReg p .cap).toNat = p.mMax := by
  have := mMax_le p
  exact Nat.mod_eq_of_lt (by omega)

/-- BUFSZ reads BUF_BYTES itself: it fits the register (A5). -/
theorem readReg_bufsz_toNat (p : Params) (s : State) : (s.readReg p .bufsz).toNat = p.bufBytes :=
  Nat.mod_eq_of_lt (bufBytes_lt p)

/-- Settles O42: the value read is that of the register at the offset, or 0 where none lies. -/
theorem registerReads : Obligations.RegisterReads := by
  intro s off rest hlt h8 ha
  refine ⟨s.advance.readOffset Config.params off, ?_, readOffset_advance .id, readOffset_advance .cmd,
    readOffset_advance .status, fun h hf => ?_, fun h f hf => ?_, readOffset_advance .argM,
    readOffset_advance .argK, readOffset_advance .argPos, readOffset_advance .addr,
    readOffset_advance .len, readOffset_advance .outLen, readOffset_advance .m, readOffset_advance .k,
    readOffset_advance .n, fun h => ?_, fun h => ?_, readOffset_reserved _ _⟩
  · rw [step_r64 ha hlt h8, advance_of_cons ha]
    rfl
  · rw [readOffset_advance .irqEn h, State.readReg, irqEn_eq, doneIeRead_idle hf]
  · rw [readOffset_advance .irqEn h, State.readReg, irqEn_eq, doneIeRead_busy hf]
  · rw [readOffset_advance .cap h, readReg_cap_toNat]
  · rw [readOffset_advance .bufsz h, readReg_bufsz_toNat]

/-! ## Reads while a command is in flight -/

theorem inFlight_of_idle {s : State} (h : s.busy = false) : s.inFlight = none := by
  simpa [State.busy] using h

/-- Clearing bit 1 and setting bit 0 of a word acts on its two lowest fields alone: both masks are split into
the same fields. -/
theorem clearDone_setBusy (high : BitVec 62) (d : Bool) :
    (high ++ BitVec.ofBool d ++ BitVec.ofBool false &&& ~~~2#64) ||| 1#64 =
      high ++ BitVec.ofBool false ++ BitVec.ofBool true := by
  change (high ++ BitVec.ofBool d ++ 0#1 &&& BitVec.allOnes 62 ++ 0#1 ++ 1#1) |||
    0#62 ++ 0#1 ++ 1#1 = _
  rw [BitVec.and_append, BitVec.and_append, BitVec.and_allOnes, BitVec.or_append,
    BitVec.or_append]
  simp

/-- An issue shows in STATUS as BUSY = 1 and DONE = 0 alone (10_state.md R28; 20_memory.md R79). -/
theorem status_issue {s : State} (h : s.busy = false) (v : Word) :
    (s.issue v).status = (s.status &&& ~~~2#64) ||| 1#64 := by
  have hf := inFlight_of_idle h
  rw [State.status, State.status, h, clearDone_setBusy, awbRead_idle hf]
  rfl

/-- An issue keeps DONE_IE for the reads to come, so no register but STATUS reads otherwise. -/
theorem readReg_issue {s : State} (h : s.busy = false) (p : Params) (v : Word) {r : Reg}
    (hr : r ≠ .status) : (s.issue v).readReg p r = s.readReg p r := by
  have hf := inFlight_of_idle h
  cases r with
  | status => exact absurd rfl hr
  | irqEn => simp only [State.readReg, irqEn_eq, doneIeRead_idle hf]; rfl
  | id | cmd | argM | argK | argPos | addr | len | outLen | m | k | n | cap | bufsz => rfl

theorem readReg_saw (p : Params) (s : State) (x : Reading) (r : Reg) :
    (s.saw x).readReg p r = s.readReg p r := by cases r <;> rfl

/-- A poll leaves a reading and events to come, neither of which a register read looks at. -/
theorem readReg_poll (p : Params) (s : State) (r : Reg) : s.poll.readReg p r = s.readReg p r := by
  unfold State.poll
  dsimp only
  split
  · cases r <;> rfl
  · exact readReg_saw ..

theorem readReg_lostWrite_of_busy {s : State} {f : InFlight} (hf : s.inFlight = some f) (p : Params)
    (r : Reg) : s.lostWrite.readReg p r = s.readReg p r :=
  readReg_congr_busy (t := s.lostWrite) hf hf rfl rfl rfl rfl rfl rfl r

/-- While busy a register write reaches AWB, DONE and DONE_IE alone; DONE is 0 already, and the other two
read as kept at the issue (20_memory.md R79; A16). -/
theorem readReg_writeOffset_of_busy {s : State} {f : InFlight} (hf : s.inFlight = some f)
    (hd : s.done = false) (off : Nat) (v : Word) (p : Params) (r : Reg) :
    (s.writeOffset off v).readReg p r = s.readReg p r := by
  have hb : s.busy = true := (busy_iff s).mpr ⟨f, hf⟩
  rcases writeOffset_cases s off v with e | ⟨e, -⟩ | ⟨-, hidle⟩ | ⟨d, a, e⟩ | ⟨d, e⟩ | ⟨o, -, hidle⟩
  · rw [e]
  · rw [e, readReg_lostWrite_of_busy hf]
  · exact absurd hb (by simp [hidle])
  · rw [e]
    exact readReg_congr_busy (t := { s with done := s.done && d, awb := s.awb && a }) hf hf rfl
      (by simp [hd]) rfl rfl rfl rfl r
  · rw [e]
    exact readReg_congr_busy (t := { s with doneIe := d }) hf hf rfl rfl rfl rfl rfl rfl r
  · exact absurd hb (by simp [hidle])

theorem readReg_hostAccess_of_busy {p : Params} {s t : State} {f : InFlight} {a : Access}
    (hf : s.inFlight = some f) (hd : s.done = false) (ht : hostAccess p s a = .next t) (r : Reg) :
    t.readReg p r = s.readReg p r := by
  rcases hostAccess_next ht with ⟨off, v, -, -, -, rfl⟩ | ⟨off, -, -, -, rfl⟩ | ⟨i, b, -, -, rfl⟩ |
    ⟨i, -, -, rfl⟩
  · exact readReg_writeOffset_of_busy hf hd off v p r
  · exact readReg_saw ..
  · rw [State.writeByte, writeIdle_of_busy ((busy_iff s).mpr ⟨f, hf⟩), readReg_lostWrite_of_busy hf]
  · exact readReg_saw ..

/-- The engine's turn ends BUSY (60_exceptions.md R241). -/
theorem busy_engineTurn {s t : State} (h : engineTurn exec s = .next t) : t.busy = false := by
  rcases engineTurn_next h with ⟨hf, rfl⟩ | ⟨f, i, -, -, rfl⟩ | ⟨f, r, -, -, rfl⟩
  · exact busy_none hf
  · rfl
  · rfl

/-- A step from a busy state to a busy one is a host access or a poll, and leaves every register read. -/
theorem readReg_step_of_busy {s t : State} (h : s.Inv) (hs : s.busy = true) (hstep : step s = .next t)
    (ht : t.busy = true) (r : Reg) :
    t.readReg Config.params r = s.readReg Config.params r := by
  obtain ⟨f, hf⟩ := (busy_iff s).mp hs
  rcases step_cases hstep with ⟨-, hidle, -⟩ | ⟨-, hturn⟩ | ⟨a, rest, -, ha⟩ | ⟨rest, -, rfl⟩ |
    ⟨rest, -, rfl⟩
  · exact absurd hs (by simp [hidle])
  · exact absurd ht (by simp [busy_engineTurn hturn])
  · rw [readReg_hostAccess_of_busy (s := s.advance) hf (h.busy_not_done hs) ha, readReg_advance]
  · rw [readReg_poll, readReg_advance]
  · cases ht

/-- Settles O56: the issue by what it changes in STATUS, and the busy steps by what each can do. -/
theorem registerReadsWhileBusyAreOld : Obligations.RegisterReadsWhileBusyAreOld := by
  refine fun s => ⟨fun v rest ha hb => ⟨s.advance.issue v, ?_, rfl, fun r hr => ?_, ?_⟩, fun hinv hb =>
    ⟨?_, ?_, fun t hstep ht r => readReg_step_of_busy hinv hb hstep ht r⟩⟩
  · rw [step_writeReg .cmd ha, State.writeReg, writeIdle_of_idle (s := s.advance) hb]
  · rw [readReg_issue (s := s.advance) hb _ v hr, readReg_advance]
  · exact status_issue (s := s.advance) hb v
  · rw [status_busy, hb]
  · rw [status_done, hinv.busy_not_done hb]

end Sys2Proof.Proofs

/-! # Bytes of BUF (20_memory.md R60 to R64, R79) -/

namespace Sys2Proof.Proofs

open Sys2Proof.Machine Sys2Proof.Laws

theorem readAny_of_written {m : Memory} {i : Nat} {b : Byte} (h : Memory.read m i = some b) (d : Nat) :
    Memory.readAny m d i = b := by
  rw [Memory.readAny, h, Option.getD_some]

theorem readAny_of_unwritten {m : Memory} {i : Nat} (h : Memory.read m i = none) (d : Nat) :
    Memory.readAny m d i = Config.freeByte d i := by
  rw [Memory.readAny, h, Option.getD_none]

theorem getElem?_key (s : State) {i : Nat} (h : i < s.operands.len.toNat) :
    s.key[i]? = some (Memory.readAny s.buf s.draws (s.operands.addr.toNat + i)) := by
  rw [List.getElem?_eq_getElem (by rwa [length_key])]
  exact congrArg some (getElem_readBytes ..)

/-- Settles O17: byte i of the key is a read of BUF[ADDR + i], written or not. -/
theorem keyIsTheBufRegion : Obligations.KeyIsTheBufRegion := by
  refine fun s => ⟨length_key s, fun i hi => ⟨fun b hb => ?_, fun hn => ?_⟩⟩
  · rw [getElem?_key s hi, readAny_of_written hb]
  · rw [getElem?_key s hi, readAny_of_unwritten hn]

/-- Settles O46: a byte write is a write of an idle engine, so it is lost while busy. -/
theorem bufferByteWrites : Obligations.BufferByteWrites := by
  intro s i b rest hi ha
  have hstep := step_w8 ha hi
  rw [State.writeByte] at hstep
  refine ⟨fun hb => ?_, fun hb => ⟨Memory.write s.buf i b, ?_, read_write_same .., fun j hj =>
    read_write_other _ b hj.symm⟩⟩
  · rw [hstep, writeIdle_of_busy (s := s.advance) hb, advance_of_cons ha]
    rfl
  · rw [hstep, writeIdle_of_idle (s := s.advance) hb, advance_of_cons ha]

theorem readByte_of_idle {s : State} (h : s.busy = false) (i : Nat) :
    s.readByte i = Memory.readAny s.buf s.draws i := by
  simp [State.readByte, h]

theorem readByte_of_busy {s : State} (h : s.busy = true) (i : Nat) :
    s.readByte i = Config.freeByte s.draws i := by
  simp [State.readByte, h]

/-- Settles O47: the read step keeps the byte read; an idle read looks BUF up, a busy one draws. -/
theorem bufferByteReads : Obligations.BufferByteReads := by
  intro s i rest hi ha
  refine ⟨s.advance.readByte i, ?_, fun hb x hx => ?_, fun hb hn => ?_, fun hb => ?_⟩
  · rw [step_r8 ha hi, advance_of_cons ha]
    rfl
  · rw [readByte_of_idle (s := s.advance) hb]
    exact readAny_of_written hx _
  · rw [readByte_of_idle (s := s.advance) hb]
    exact readAny_of_unwritten hn _
  · exact readByte_of_busy (s := s.advance) hb i

end Sys2Proof.Proofs

/-! # Command words and the life of a command (30_encoding.md R90 to R99) -/

namespace Sys2Proof.Proofs

open Sys2Proof.Machine Sys2Proof.Laws

/-! ## Decoding -/

/-- A word is the encoding of a command when its two fields are the command's. -/
theorem eq_encode_iff {w : Word} {i : Instr} :
    w = encode i ↔ CommandWord.ofWord w = i.commandWord := by
  constructor
  · rintro rfl
    exact ofWord_toWord _
  · intro h
    rw [encode, ← h, toWord_ofWord]

/-- The decoder accepts a word for its two fields: RSVD zero, OPC the command's (30_encoding.md R93). -/
theorem decode_ok_iff {w : Word} {i : Instr} :
    decode w = .ok i ↔ CommandWord.ofWord w = i.commandWord := by
  rw [Instr.commandWord, CommandWord.mk.injEq]
  by_cases h : (CommandWord.ofWord w).rsvd = 0
  · rw [decode_of_zero h, decodeOpcode_ok]
    exact (and_iff_right h).symm
  · rw [decode_of_reserved h]
    exact iff_of_false nofun fun hw => h hw.1

/-- Settles O2: both sides say that the word's fields are the command's. -/
theorem decodesExactlyItsEncoding : Obligations.DecodesExactlyItsEncoding :=
  fun _ _ => decode_ok_iff.trans eq_encode_iff.symm

theorem decode_encode (i : Instr) : decode (encode i) = .ok i :=
  (decodesExactlyItsEncoding _ _).mpr rfl

/-- Settles O1: each word of the table is the encoding of its command, so it decodes to it. -/
theorem tableWordsDecode : Obligations.TableWordsDecode :=
  ⟨decode_encode .construct, decode_encode .constructFixed, decode_encode .add, decode_encode .test,
    decode_encode .serialize, decode_encode .deserialize, decode_encode .loadFixed,
    decode_encode .setbit, decode_encode .testbit, decode_encode .discard⟩

/-! ## Illegal words -/

/-- The assigned opcodes are those of the commands (30_encoding.md R92). -/
theorem mem_assignedOpcodes {o : BitVec 8} : o ∈ assignedOpcodes ↔ ∃ i : Instr, i.opcode = o := by
  constructor
  · intro h
    simp only [assignedOpcodes, List.mem_cons, List.not_mem_nil, or_false] at h
    rcases h with rfl | rfl | rfl | rfl | rfl | rfl | rfl | rfl | rfl | rfl
    exacts [⟨.construct, rfl⟩, ⟨.constructFixed, rfl⟩, ⟨.add, rfl⟩, ⟨.test, rfl⟩, ⟨.serialize, rfl⟩,
      ⟨.deserialize, rfl⟩, ⟨.loadFixed, rfl⟩, ⟨.setbit, rfl⟩, ⟨.testbit, rfl⟩, ⟨.discard, rfl⟩]
  · rintro ⟨i, rfl⟩
    cases i <;> decide

/-- 30_encoding.md R93 (2): an unassigned opcode has no command. -/
theorem decodeOpcode_unassigned {o : BitVec 8} (h : o ∉ assignedOpcodes) :
    ∃ r, decodeOpcode o = .error r := by
  cases hd : decodeOpcode o with
  | error r => exact ⟨r, rfl⟩
  | ok i => exact absurd (mem_assignedOpcodes.mpr ⟨i, (decodeOpcode_ok.mp hd).symm⟩) h

/-- Settles O3: the word's fields decide what it decodes to, and so what the engine's turn does. -/
theorem illegalWordsCompleteWithIllegalCommand :
    Obligations.IllegalWordsCompleteWithIllegalCommand := by
  intro s f hturn hf
  refine ⟨fun hrsvd => ?_, fun hrsvd hopc => ?_, fun hrsvd hopc => ?_⟩
  · exact step_of_illegal hturn hf (decode_of_reserved hrsvd)
  · obtain ⟨r, hr⟩ := decodeOpcode_unassigned hopc
    exact step_of_illegal hturn hf ((decode_of_zero hrsvd).trans hr)
  · obtain ⟨i, hi⟩ := mem_assignedOpcodes.mp hopc
    have hd : decode f.word = .ok i := (decode_of_zero hrsvd).trans (decodeOpcode_ok.mpr hi.symm)
    exact ⟨i, hi, step_of_runs ⟨hturn, f, hf, hd⟩⟩

/-! ## The statement `wait` -/

theorem step_of_wait {s : State} {rest : List Event} (h : s.agenda = .wait :: rest) :
    step s = .next s.advance.poll := by
  rw [step, stepOn, h]

theorem poll_of_idle {s : State} (h : s.busy = false) : s.poll = s.saw (.word s.status) := by
  rw [State.poll, status_busy, h]
  rfl

theorem poll_of_busy {s : State} (h : s.busy = true) :
    s.poll = { s.saw (.word s.status) with agenda := .engine :: .wait :: s.agenda } := by
  rw [State.poll, status_busy, h]
  rfl

/-- On an idle engine `wait` is one poll. -/
theorem step_wait_of_idle {s : State} {rest : List Event} (ha : s.agenda = .wait :: rest)
    (hb : s.busy = false) :
    step s = .next { s with
      agenda := rest, draws := s.draws + 1, hostSaw := .word s.status :: s.hostSaw } := by
  rw [step_of_wait ha, poll_of_idle (s := s.advance) hb, advance_of_cons ha]
  rfl

/-- With a command in flight the poll puts the engine's turn before the next poll (A11). -/
theorem step_wait_of_busy {s : State} {rest : List Event} (ha : s.agenda = .wait :: rest)
    (hb : s.busy = true) :
    step s = .next { s with
      agenda := .engine :: .wait :: rest, draws := s.draws + 1
      hostSaw := .word s.status :: s.hostSaw } := by
  rw [step_of_wait ha, poll_of_busy (s := s.advance) hb, advance_of_cons ha]
  rfl

/-- On the engine's turn a word in flight, legal or not, is committed; the events after it stay. -/
theorem step_commits {s : State} {f : InFlight} (hturn : s.engineNext) (hf : s.inFlight = some f) :
    ∃ t, step s = .next t ∧ (∀ i, decode f.word = .ok i → exec i s.advance = .next t) ∧
      (∀ r, decode f.word = .error r → t = s.advance.ended .illegalCommand false) ∧
      t.busy = false ∧ t.agenda = s.agenda.tail := by
  cases hd : decode f.word with
  | ok i =>
    refine ⟨_, (step_of_runs ⟨hturn, f, hf, hd⟩).trans (exec_eq i _), fun j hj => ?_, nofun, rfl, rfl⟩
    cases hj
    exact exec_eq i _
  | error r => exact ⟨_, step_of_illegal hturn hf hd, nofun, fun _ _ => rfl, rfl, rfl⟩

/-- Settles O8: poll, turn, poll; the turn commits, so the second poll finds the engine idle. -/
theorem waitEndsAfterTheCommit : Obligations.WaitEndsAfterTheCommit := by
  refine fun s rest ha => ⟨fun hf => ?_, ?_⟩
  · have hb : s.busy = false := busy_none hf
    exact ⟨(status_busy s).trans hb, step_wait_of_idle ha hb⟩
  · rintro f v hf rfl
    have hb : s.busy = true := (busy_iff s).mpr ⟨f, hf⟩
    obtain ⟨u, hturn, hok, herr, hidle, hagenda⟩ := step_commits (s := { s with
      agenda := .engine :: .wait :: rest, draws := s.draws + 1
      hostSaw := .word s.status :: s.hostSaw }) (.inr rfl) hf
    exact ⟨_, u, step_wait_of_busy ha hb, (status_busy s).trans hb, hturn, hok, herr,
      (status_busy u).trans hidle, step_wait_of_idle hagenda hidle⟩

/-! ## The operands a command reads -/

/-- The operands a command's row marks, the others set to 0 (30_encoding.md R99). -/
def markedOperands (o : Operands) : Instr → Operands
  | .construct | .constructFixed => ⟨o.argM, o.argK, 0, 0, 0⟩
  | .add | .test | .deserialize => ⟨0, 0, 0, o.addr, o.len⟩
  | .serialize => ⟨0, 0, 0, o.addr, 0⟩
  | .loadFixed => ⟨o.argM, o.argK, 0, o.addr, o.len⟩
  | .setbit | .testbit => ⟨0, 0, o.argPos, 0, 0⟩
  | .discard => ⟨0, 0, 0, 0, 0⟩

theorem markedOperands_congr {i : Instr} {a b : Operands} (h : readsSame i a b) :
    markedOperands a i = markedOperands b i := by
  cases i <;> simp_all [readsSame, markedOperands]

/-- A command ends as if the operands its row does not mark were 0: it never looks at them. -/
theorem exec_markedOperands (i : Instr) (s : State) (f : InFlight) :
    exec i { s with inFlight := some f } =
      exec i { s with inFlight := some { f with ops := markedOperands f.ops i } } := by
  cases i <;> rfl

/-- What is latched beside the operands has no part in a command's end. -/
theorem exec_congr_latched (i : Instr) (s : State) {f g : InFlight} (h : f.ops = g.ops) :
    exec i { s with inFlight := some f } = exec i { s with inFlight := some g } := by
  have hc := completion_congr (s := { s with inFlight := some f }) (t := { s with inFlight := some g })
    rfl rfl h i
  rw [exec_eq, exec_eq, hc]
  rfl

/-- Settles O12: both latches act as the marked operands alone, which agree. -/
theorem onlyMarkedOperandsAreRead : Obligations.OnlyMarkedOperandsAreRead := by
  intro i s f g h
  rw [exec_markedOperands i s f, exec_markedOperands i s g]
  exact exec_congr_latched i s (markedOperands_congr h)

end Sys2Proof.Proofs

/-! # The BitArray (40_bitarray.md R111 to R118) -/

namespace Sys2Proof.Proofs

open Sys2Proof.Machine Sys2Proof.Laws

/-! ## SETBIT and TESTBIT -/

section BitChecks

variable {s : State} (act : Completion)

theorem bitChecks_none (h : s.ctx.mode = .none) : bitChecks s act = raise s .noFilter := if_pos h

theorem bitChecks_fix (h : s.ctx.mode = .fix) : bitChecks s act = raise s .wrongMode := by
  simp [bitChecks, h]

theorem bitChecks_zeroCapacity (h : s.ctx.mode = .gen) (hm : s.ctx.m = 0) :
    bitChecks s act = raise s .zeroCapacity := by
  simp [bitChecks, h, hm]

theorem bitChecks_passed (h : s.ctx.mode = .gen) (hm : s.ctx.m ≠ 0) : bitChecks s act = act := by
  rw [bitChecks, if_neg (by simp [h]), if_neg (by simp [h]), if_neg hm]

end BitChecks

/-- Settles O26: the checks mode by mode, then the one bit that SetBit adds. -/
theorem setbitFollowsItsRule : Obligations.SetbitFollowsItsRule := by
  refine ⟨decode_encode .setbit, fun s => ⟨fun h => exec_raise (bitChecks_none _ h),
    fun h => exec_raise (bitChecks_fix _ h),
    fun h hm => exec_raise (bitChecks_zeroCapacity _ h hm), fun h hm =>
    ⟨setBit s.ctx.m s.bv s.operands.argPos, ?_, fun b => ?_⟩⟩⟩
  · exact exec_succeed (i := .setbit) (bitChecks_passed _ h hm)
  · rw [bvBit_setBit, Bool.or_eq_true, decide_eq_true_eq, bitIndex]

/-- Settles O27: the checks mode by mode, then the one bit that TestBit reads. -/
theorem testbitFollowsItsRule : Obligations.TestbitFollowsItsRule := by
  refine ⟨decode_encode .testbit, fun s => ⟨fun h => exec_raise (bitChecks_none _ h),
    fun h => exec_raise (bitChecks_fix _ h),
    fun h hm => exec_raise (bitChecks_zeroCapacity _ h hm), fun h hm => ?_⟩⟩
  rw [exec_answer (i := .testbit) (bitChecks_passed _ h hm), testBit_eq, bitIndex]

/-! ## Bits that are set stay set (40_bitarray.md R115) -/

theorem bvBit_foldl_setBit_of_set {bv : Buckets} {b : Nat} (h : bvBit bv b = true) (m : Word)
    (ps : List Word) : bvBit (ps.foldl (setBit m) bv) b = true :=
  (bvBit_foldl_setBit m ps bv b).mpr (.inl h)

/-- Of the successful ends only those of CONSTRUCT and DESERIALIZE stage a cleared bit. -/
theorem success_keeps_bits {s : State} {w : Staged} {r : Bool} {i : Instr} (hs : Success s w r i)
    (hc : i ≠ .construct) (hd : i ≠ .deserialize) {b : Nat} (h : bvBit s.bv b = true) :
    bvBit w.bv b = true := by
  cases i with
  | construct => exact absurd rfl hc
  | deserialize => exact absurd rfl hd
  | setbit =>
    obtain ⟨-, rfl, -⟩ := hs
    exact bvBit_foldl_setBit_of_set h _ [_]
  | add =>
    obtain ⟨-, ⟨rfl, -⟩ | ⟨rfl, -⟩ | ⟨rfl, -⟩⟩ := hs
    · exact h
    · exact bvBit_foldl_setBit_of_set h _ _
    · exact h
  | test | testbit =>
    obtain ⟨rfl, -⟩ := hs
    exact h
  | constructFixed | serialize | loadFixed =>
    obtain ⟨-, rfl, -⟩ := hs
    exact h
  | discard =>
    obtain ⟨-, rfl⟩ := hs
    exact h

theorem exec_keeps_bits {i : Instr} {s t : State} (ht : exec i s = .next t) (hc : i ≠ .construct)
    (hd : i ≠ .deserialize) {b : Nat} (h : bvBit s.bv b = true) : bvBit t.bv b = true := by
  rcases exec_cases ht with ⟨e, rfl, -⟩ | ⟨w, r, rfl, hs⟩
  · exact h
  · exact success_keeps_bits hs hc hd h

/-- Settles O28: a step leaves BV alone, resets, or executes a command, and every command but the two keeps
the bits that are set. -/
theorem bucketBitsAreNeverCleared : Obligations.BucketBitsAreNeverCleared := by
  intro s t b ht hset hclear
  rcases step_filter ht with ⟨-, hbv, -⟩ | ⟨i, hi, he⟩ | hreset
  · rw [hbv, hset] at hclear
    cases hclear
  · by_cases hc : i = .construct
    · exact .inl (hc ▸ hi)
    by_cases hd : i = .deserialize
    · exact .inr (.inl (hd ▸ hi))
    rw [exec_keeps_bits he hc hd hset] at hclear
    cases hclear
  · exact .inr (.inr hreset)

/-! ## Bits at or above m (40_bitarray.md R118) -/

/-- A position is taken modulo m, so no SetBit reaches a bit at or above m (40_bitarray.md R111). -/
theorem bvBit_foldl_setBit_beyond {m : Word} (hm : m ≠ 0) (ps : List Word) (bv : Buckets) {b : Nat}
    (h : m.toNat ≤ b) : bvBit (ps.foldl (setBit m) bv) b = bvBit bv b := by
  rw [Bool.eq_iff_iff, bvBit_foldl_setBit, or_iff_left]
  rintro ⟨pos, -, rfl⟩
  exact absurd (bitIndex_lt hm pos) (Nat.not_lt.mpr h)

theorem success_setbit_beyond {s : State} {w : Staged} {r : Bool} (hs : Success s w r .setbit) {b : Nat}
    (h : s.ctx.m.toNat ≤ b) : bvBit w.bv b = bvBit s.bv b := by
  obtain ⟨-, rfl, -, hm⟩ := hs
  exact bvBit_foldl_setBit_beyond hm [_] _ h

theorem success_add_beyond {s : State} {w : Staged} {r : Bool} (hs : Success s w r .add) {b : Nat}
    (h : s.ctx.m.toNat ≤ b) : bvBit w.bv b = bvBit s.bv b := by
  obtain ⟨-, ⟨rfl, -⟩ | ⟨rfl, -, -, -, hm⟩ | ⟨rfl, -⟩⟩ := hs
  · rfl
  · exact bvBit_foldl_setBit_beyond hm _ _ h
  · rfl

/-- TestBit reads a bit below m, so it sees no other (40_bitarray.md R111). -/
theorem testBit_congr_bits {m : Word} (hm : m ≠ 0) {a b : Buckets}
    (h : ∀ p < m.toNat, bvBit a p = bvBit b p) (pos : Word) : testBit m a pos = testBit m b pos := by
  rw [testBit_eq, testBit_eq, h _ (bitIndex_lt hm pos)]

theorem genTest_congr_bits {s : State} (hm : s.ctx.m ≠ 0) {bv' : Buckets}
    (h : ∀ b < s.ctx.m.toNat, bvBit bv' b = bvBit s.bv b) (p : Params) (key : List Byte) :
    genTest p { s with bv := bv' } key = genTest p s key :=
  congrArg (List.all (genPositions p key s.ctx.k)) (funext (testBit_congr_bits hm h))

/-- Both completions write STATUS alone, and write the same to it. -/
def SameStatus (s s' : State) (c c' : Completion) : Prop :=
  ∃ e r, commit c s = s.ended e r ∧ commit c' s' = s'.ended e r

theorem sameStatus_raise (s s' : State) (e : ErrorCode) : SameStatus s s' (raise s e) (raise s' e) :=
  ⟨e, false, commit_raise_ended s e, commit_raise_ended s' e⟩

theorem sameStatus_answer (s s' : State) {r r' : Bool} (h : r' = r) :
    SameStatus s s' (answer s r) (answer s' r') :=
  h ▸ ⟨.ok, r', commit_answer_ended s r', commit_answer_ended s' r'⟩

theorem sameStatus_ite {q : Prop} [Decidable q] {s s' : State} {c c' d d' : Completion}
    (hc : q → SameStatus s s' c c') (hd : ¬ q → SameStatus s s' d d') :
    SameStatus s s' (if q then c else d) (if q then c' else d') := by
  split
  · exact hc ‹_›
  · exact hd ‹_›

section OtherBuckets

variable {s : State} {bv' : Buckets}

/-- TESTBIT's checks look at the context alone. -/
theorem sameStatus_testbit (h : ∀ b < s.ctx.m.toNat, bvBit bv' b = bvBit s.bv b) :
    SameStatus s { s with bv := bv' } (testbitOn s) (testbitOn { s with bv := bv' }) := by
  refine sameStatus_ite (fun _ => sameStatus_raise ..) fun _ => ?_
  refine sameStatus_ite (fun _ => sameStatus_raise ..) fun _ => ?_
  refine sameStatus_ite (fun _ => sameStatus_raise ..) fun hm => ?_
  exact sameStatus_answer _ _ (testBit_congr_bits hm h _)

/-- TEST's checks look at the context and the operands alone. -/
theorem sameStatus_test (p : Params) (h : ∀ b < s.ctx.m.toNat, bvBit bv' b = bvBit s.bv b) :
    SameStatus s { s with bv := bv' } (testOn p s) (testOn p { s with bv := bv' }) := by
  refine sameStatus_ite (fun _ => sameStatus_raise ..) fun _ => ?_
  refine sameStatus_ite (fun _ => sameStatus_answer _ _ rfl) fun _ => ?_
  refine sameStatus_ite (fun _ => sameStatus_raise ..) fun _ => ?_
  refine sameStatus_ite (fun _ => ?_) fun _ => sameStatus_answer _ _ rfl
  refine sameStatus_ite (fun _ => sameStatus_raise ..) fun hm => ?_
  exact sameStatus_answer _ _ (genTest_congr_bits hm h _ _)

theorem exec_setBuckets_of_sameStatus {i : Instr} {t : State}
    (h : SameStatus s { s with bv := bv' } (completion s i) (completion { s with bv := bv' } i))
    (ht : exec i s = .next t) : exec i { s with bv := bv' } = .next { t with bv := bv' } := by
  obtain ⟨e, r, hs, hs'⟩ := h
  rw [exec_eq, hs', exec_next ht, hs]
  rfl

end OtherBuckets

/-- Settles O30: every bit that a command sets or tests is below m. -/
theorem bitsBeyondCapacityAreNeverTouched : Obligations.BitsBeyondCapacityAreNeverTouched := by
  refine ⟨fun i s t b hi _ hb ht => ?_, fun i s t bv' hi _ hbits ht => ?_⟩
  · rcases exec_cases ht with ⟨e, rfl, -⟩ | ⟨w, r, rfl, hs⟩
    · rfl
    · rcases hi with rfl | rfl
      · exact success_setbit_beyond hs hb
      · exact success_add_beyond hs hb
  · rcases hi with rfl | rfl
    · exact exec_setBuckets_of_sameStatus (sameStatus_testbit hbits) ht
    · exact exec_setBuckets_of_sameStatus (sameStatus_test _ hbits) ht

end Sys2Proof.Proofs

/-! # The HashExpander (41_hash_expander.md R131 to R139) -/

namespace Sys2Proof.Proofs

open Sys2Proof.Machine Sys2Proof.Laws

/-- A partial round of no chunks adds nothing, so R133's guard `rem > 0` can be dropped. -/
theorem genPositions_eq_append (p : Params) (key : List Byte) (k : Word) :
    genPositions p key k =
      (List.range (k.toNat / 4)).flatMap (fun r => chunks (roundDigest p key r) 4) ++
        chunks (roundDigest p key (k.toNat / 4)) (k.toNat % 4) := by
  rw [genPositions, fullRounds_eq, partialChunks_eq]
  split
  · rfl
  · next hrem => rw [Nat.eq_zero_of_not_pos hrem]; rfl

theorem length_flatMap_chunks (g : Nat → List Byte) (n : Nat) :
    ((List.range n).flatMap fun r => chunks (g r) 4).length = 4 * n := by
  simp [List.length_flatMap, Nat.mul_comm]

theorem length_genPositions (p : Params) (key : List Byte) (k : Word) :
    (genPositions p key k).length = k.toNat := by
  rw [genPositions_eq_append, List.length_append, length_flatMap_chunks, length_chunks,
    Nat.div_add_mod]

/-- Candidate j lies in a full round when j < 4 * (k div 4), else in the partial one, whose number is then
also j div 4. -/
theorem getElem?_genPositions (p : Params) (key : List Byte) {k : Word} {j : Nat} (hj : j < k.toNat) :
    (genPositions p key k)[j]? = some (chunk (roundDigest p key (j / 4)) (j % 4)) := by
  have hlen := length_flatMap_chunks (roundDigest p key) (k.toNat / 4)
  rw [genPositions_eq_append]
  by_cases hfull : j < 4 * (k.toNat / 4)
  · rw [List.getElem?_append_left (by omega), getElem?_rounds _ _ _ hfull]
  · have hround : k.toNat / 4 = j / 4 := by omega
    have hchunk : j - 4 * (k.toNat / 4) = j % 4 := by omega
    rw [List.getElem?_append_right (by omega), hlen, hchunk, getElem?_chunks _ (by omega), hround]

/-- Settles O18: the full rounds and the partial round list the candidates in order of their index. -/
theorem genPositionsAreTheRoundsChunks : Obligations.GenPositionsAreTheRoundsChunks :=
  fun p key k => ⟨length_genPositions p key k, fun _ hj => getElem?_genPositions p key hj⟩

/-- c & 7 keeps the three low bits of a byte. -/
theorem toNat_truncate_and_seven (c : Byte) : ((c &&& 7#8).truncate 3).toNat = c.toNat % 8 := by
  have hand : (c &&& 7#8).toNat = c.toNat % 8 := Nat.and_two_pow_sub_one_eq_mod c.toNat 3
  rw [BitVec.truncate_eq_setWidth, BitVec.toNat_setWidth, hand, Nat.mod_mod]

/-- The 32 bytes of a digest make 16 pairs, so for k ≤ 16 none is missing (R139). -/
theorem length_fixedPairs (p : Params) (key : List Byte) {k : Word} (hk : k.toNat ≤ 16) :
    (fixedPairs p key k).length = k.toNat := by
  rw [fixedPairs, List.length_take, length_digestPairs, length_digest]
  exact Nat.min_eq_left hk

theorem getElem?_fixedPairs {p : Params} {key : List Byte} {k : Word} {j : Nat} {b c : Byte}
    (hj : j < k.toNat) (hb : (digest p key)[2 * j]? = some b)
    (hc : (digest p key)[2 * j + 1]? = some c) :
    (fixedPairs p key k)[j]? = some ⟨b, (c &&& 7#8).truncate 3⟩ := by
  rw [fixedPairs, List.getElem?_take_of_lt hj, getElem?_digestPairs _ _ _ _ hb hc]

/-- Settles O19: bytes 2j and 2j + 1 lie in the digest when j < 16, and they are pair j. -/
theorem fixedPairsAreTheDigestsBytePairs : Obligations.FixedPairsAreTheDigestsBytePairs := by
  intro p key k hk
  refine ⟨length_fixedPairs p key hk, fun j hj => ?_⟩
  have hlen := length_digest p key
  have hb : (digest p key)[2 * j]? = some _ := List.getElem?_eq_getElem (by omega)
  have hc : (digest p key)[2 * j + 1]? = some _ := List.getElem?_eq_getElem (by omega)
  exact ⟨⟨_, _⟩, getElem?_fixedPairs hj hb hc, hb, _, hc, toNat_truncate_and_seven _⟩

end Sys2Proof.Proofs

/-! # The FilterCore (42_filter_core.md R150 to R163; 43_fixed_filter.md R182, R183) -/

namespace Sys2Proof.Proofs

open Sys2Proof.Machine Sys2Proof.Laws

/-! ## The checks of ADD and TEST, in the order of R154 -/

section KeyChecks

variable {p : Params} {s : State} (empty gen fix : Completion)

theorem keyChecks_none (h : s.ctx.mode = .none) :
    keyChecks p s empty gen fix = raise s .noFilter := if_pos h

variable (hmode : s.ctx.mode ≠ .none)
include hmode

theorem keyChecks_empty (hlen : s.operands.len = 0) : keyChecks p s empty gen fix = empty := by
  rw [keyChecks, if_neg hmode, if_pos hlen]

variable (hlen : s.operands.len ≠ 0)
include hlen

theorem keyChecks_bufferRange (h : p.bufBytes < s.operands.addr.toNat + s.operands.len.toNat) :
    keyChecks p s empty gen fix = raise s .bufferRange := by
  rw [keyChecks, if_neg hmode, if_neg hlen, if_pos (Nat.not_le.mpr h)]

/-- Past the three checks both modes share, the mode decides. -/
theorem keyChecks_inBuf (h : inBuf p s.operands.addr.toNat s.operands.len.toNat) :
    keyChecks p s empty gen fix =
      if s.ctx.mode = .gen then if s.ctx.m = 0 then raise s .zeroCapacity else gen else fix := by
  rw [keyChecks, if_neg hmode, if_neg hlen, if_neg (not_not_intro h)]

end KeyChecks

section KeyArms

variable {p : Params} {s : State} (empty gen fix : Completion) (hlen : s.operands.len ≠ 0)
  (hin : inBuf p s.operands.addr.toNat s.operands.len.toNat)
include hlen hin

theorem keyChecks_zeroCapacity (h : s.ctx.mode = .gen) (hm : s.ctx.m = 0) :
    keyChecks p s empty gen fix = raise s .zeroCapacity := by
  rw [keyChecks_inBuf _ _ _ (by simp [h]) hlen hin, if_pos h, if_pos hm]

theorem keyChecks_gen (h : s.ctx.mode = .gen) (hm : s.ctx.m ≠ 0) :
    keyChecks p s empty gen fix = gen := by
  rw [keyChecks_inBuf _ _ _ (by simp [h]) hlen hin, if_pos h, if_neg hm]

theorem keyChecks_fix (h : s.ctx.mode = .fix) : keyChecks p s empty gen fix = fix := by
  rw [keyChecks_inBuf _ _ _ (by simp [h]) hlen hin, if_neg (by simp [h])]

end KeyArms

/-! ## ADD and TEST -/

/-- Settles O21: the checks in R154's order, then the bits that SetBit adds for each position or pair. -/
theorem addFollowsItsRule : Obligations.AddFollowsItsRule := by
  refine ⟨decode_encode .add, fun s => ⟨fun h => exec_raise (keyChecks_none _ _ _ h),
    fun h hlen => exec_succeed (i := .add) (keyChecks_empty _ _ _ h hlen),
    fun h hlen hout => exec_raise (keyChecks_bufferRange _ _ _ h hlen hout),
    fun h hlen hin hm => exec_raise (keyChecks_zeroCapacity _ _ _ hlen hin h hm),
    fun h hlen hin hm => ⟨genAdd Config.params s s.key, ?_, fun b => ?_⟩,
    fun h hlen hin => ⟨fixedAdd Config.params s s.key, ?_, fun i b => ?_⟩⟩⟩
  · exact exec_succeed (i := .add) (keyChecks_gen _ _ _ hlen hin h hm)
  · exact bvBit_foldl_setBit _ _ _ b
  · exact exec_succeed (i := .add) (keyChecks_fix _ _ _ hlen hin h)
  · exact faBit_foldl_setPair _ _ i b

/-- Settles O22: the checks in R154's order, then the bits that TestBit reads for each position or pair. -/
theorem testFollowsItsRule : Obligations.TestFollowsItsRule := by
  refine ⟨decode_encode .test, fun s => ⟨fun h => exec_raise (keyChecks_none _ _ _ h),
    fun h hlen => exec_answer (i := .test) (keyChecks_empty _ _ _ h hlen),
    fun h hlen hout => exec_raise (keyChecks_bufferRange _ _ _ h hlen hout),
    fun h hlen hin hm => exec_raise (keyChecks_zeroCapacity _ _ _ hlen hin h hm),
    fun h hlen hin hm => ?_, fun h hlen hin => ?_⟩⟩
  · rw [exec_answer (i := .test) (keyChecks_gen _ _ _ hlen hin h hm), genTest_eq]
  · rw [exec_answer (i := .test) (keyChecks_fix _ _ _ hlen hin h), fixedTest_eq]

/-! ## CONSTRUCT and DISCARD -/

section Construct

variable {p : Params} {s : State}

theorem constructOn_invalidK (h : s.operands.argK = 0 ∨ 256 ≤ s.operands.argK.toNat) :
    constructOn p s = raise s .invalidParameter := if_pos h

variable (hk0 : s.operands.argK ≠ 0) (hk : s.operands.argK.toNat < 256)
include hk0 hk

/-- Past the check on k, the checks on m decide (42_filter_core.md R151). -/
theorem constructOn_legalK : constructOn p s =
    if s.operands.argM = 0 then raise s .invalidParameter
    else if p.mMax < s.operands.argM.toNat then raise s .capacityExceeded
    else succeed { s.staged with
      ctx := ⟨.gen, s.operands.argM, s.operands.argK, 0⟩
      bv := Buckets.clear s.bv (wordCount s.operands.argM) } :=
  if_neg (not_or.mpr ⟨hk0, Nat.not_le.mpr hk⟩)

theorem constructOn_zeroM (hm : s.operands.argM = 0) :
    constructOn p s = raise s .invalidParameter := by
  rw [constructOn_legalK hk0 hk, if_pos hm]

theorem constructOn_capacityExceeded (hm : p.mMax < s.operands.argM.toNat) :
    constructOn p s = raise s .capacityExceeded := by
  have hm0 : s.operands.argM ≠ 0 := fun h => by simp [h] at hm
  rw [constructOn_legalK hk0 hk, if_neg hm0, if_pos hm]

theorem constructOn_legal (hm0 : s.operands.argM ≠ 0) (hm : s.operands.argM.toNat ≤ p.mMax) :
    constructOn p s = succeed { s.staged with
      ctx := ⟨.gen, s.operands.argM, s.operands.argK, 0⟩
      bv := Buckets.clear s.bv (wordCount s.operands.argM) } := by
  rw [constructOn_legalK hk0 hk, if_neg hm0, if_neg (Nat.not_lt.mpr hm)]

end Construct

/-- Settles O14: the checks on k, then those on m, then the live words cleared. -/
theorem constructFollowsItsRule : Obligations.ConstructFollowsItsRule :=
  ⟨decode_encode .construct, fun s => ⟨fun h => exec_raise (constructOn_invalidK h),
    fun hk0 hk hm => exec_raise (constructOn_zeroM hk0 hk hm),
    fun hk0 hk hm => exec_raise (constructOn_capacityExceeded hk0 hk hm),
    fun hk0 hk hm0 hm => ⟨Buckets.clear s.bv (wordCount s.operands.argM),
      exec_succeed (i := .construct) (constructOn_legal hk0 hk hm0 hm),
      bucket_clear_read s.bv (wordCount s.operands.argM)⟩⟩⟩

/-- The commands that need a filter raise NoFilter without one, before any other check
(42_filter_core.md R154, 44_codec.md R200, 40_bitarray.md R116). -/
theorem exec_noFilter {s : State} (h : s.ctx.mode = .none) {i : Instr}
    (hi : i ∈ [Instr.add, .test, .serialize, .setbit, .testbit]) :
    exec i s = .next (s.ended .noFilter false) := by
  simp only [List.mem_cons, List.not_mem_nil, or_false] at hi
  rcases hi with rfl | rfl | rfl | rfl | rfl
  · exact exec_raise (keyChecks_none _ _ _ h)
  · exact exec_raise (keyChecks_none _ _ _ h)
  · exact exec_raise (if_pos h)
  · exact exec_raise (bitChecks_none _ h)
  · exact exec_raise (bitChecks_none _ h)

/-- Settles O16: DISCARD has no check, and the context it leaves has mode NONE. -/
theorem discardFollowsItsRule : Obligations.DiscardFollowsItsRule := by
  have hdiscard (s : State) : exec .discard s =
      .next ({ s with ctx := ⟨.none, 0, 0, 0⟩ }.ended .ok false) := exec_succeed (i := .discard) rfl
  refine ⟨decode_encode .discard, fun s => ⟨hdiscard s, fun t ht i hi => exec_noFilter ?_ hi⟩⟩
  rw [hdiscard] at ht
  cases ht
  rfl

/-! ## Steps that keep the filter (42_filter_core.md R163) -/

theorem runs_unique {s : State} {i j : Instr} (hi : s.runs i) (hj : s.runs j) : i = j := by
  obtain ⟨-, f, hf, hdi⟩ := hi
  obtain ⟨-, g, hg, hdj⟩ := hj
  cases hf.symm.trans hg
  exact Except.ok.inj (hdi.symm.trans hdj)

/-- Such a step leaves the filter as it is, or is a successful end of a command that replaces nothing. -/
theorem step_keepsFilter_cases {s t : State} (hk : s.keepsFilter t) (ht : step s = .next t) :
    (t.ctx = s.ctx ∧ t.bv = s.bv ∧ t.fa = s.fa ∧ ¬ s.counts t) ∨
    ∃ i w r, s.runs i ∧ replacesFilter i = false ∧ Success s.advance w r i ∧
      t = (s.advance.apply w).ended .ok r := by
  obtain ⟨hnoreset, hfails⟩ := hk
  rcases step_filter ht with ⟨hctx, hbv, hfa, hno⟩ | ⟨i, hi, he⟩ | hreset
  · exact .inl ⟨hctx, hbv, hfa, fun hc => hno _ hc.1⟩
  · rcases exec_cases he with ⟨e, rfl, herr, -⟩ | ⟨w, r, rfl, hs⟩
    · exact .inl ⟨rfl, rfl, rfl, fun ⟨_, _, hok⟩ => herr hok⟩
    · have hkeep : replacesFilter i = false := Bool.eq_false_iff.mpr fun hr => hfails i hi hr rfl
      exact .inr ⟨i, w, r, hi, hkeep, hs, rfl⟩
  · exact absurd hreset hnoreset

/-- Of the commands that replace nothing only a non-empty ADD in GEN mode changes the context: n grows by 1
(42_filter_core.md R152). -/
theorem success_ctx {s : State} {w : Staged} {r : Bool} {i : Instr} (hs : Success s w r i)
    (hi : replacesFilter i = false) :
    (w.ctx = s.ctx ∧ (s.ctx.mode = .gen → ¬ (i = .add ∧ s.operands.len ≠ 0))) ∨
    (w.ctx = { s.ctx with n := s.ctx.n + 1 } ∧ i = .add ∧ s.operands.len ≠ 0) := by
  cases i with
  | add =>
    obtain ⟨-, ⟨rfl, -, hlen⟩ | ⟨rfl, -, hlen, -⟩ | ⟨rfl, hfix, -⟩⟩ := hs
    · exact .inl ⟨rfl, fun _ hadd => hadd.2 hlen⟩
    · exact .inr ⟨rfl, rfl, hlen⟩
    · exact .inl ⟨rfl, fun hgen => absurd (hfix.symm.trans hgen) (by decide)⟩
  | test | testbit =>
    obtain ⟨rfl, -⟩ := hs
    exact .inl ⟨rfl, by simp⟩
  | serialize | setbit =>
    obtain ⟨-, rfl, -⟩ := hs
    exact .inl ⟨rfl, by simp⟩
  | construct | constructFixed | deserialize | loadFixed | discard => cases hi

/-- What a step that keeps the filter does to the context: nothing, or it is counted and n grows by 1. -/
theorem step_keepsFilter_ctx {s t : State} (hk : s.keepsFilter t) (ht : step s = .next t) :
    (t.ctx = s.ctx ∧ (s.ctx.mode = .gen → ¬ s.counts t)) ∨
    (t.ctx = { s.ctx with n := s.ctx.n + 1 } ∧ s.counts t) := by
  rcases step_keepsFilter_cases hk ht with ⟨hctx, -, -, hno⟩ | ⟨i, w, r, hi, hkeep, hs, rfl⟩
  · exact .inl ⟨hctx, fun _ => hno⟩
  · rcases success_ctx hs hkeep with ⟨hctx, hno⟩ | ⟨hctx, rfl, hlen⟩
    · exact .inl ⟨hctx, fun hgen ⟨hadd, hlen, _⟩ => hno hgen ⟨runs_unique hi hadd, hlen⟩⟩
    · exact .inr ⟨hctx, hi, hlen, rfl⟩

/-- Settles O24, by induction on the run: the mode stays GEN, where a step is counted exactly when it
increments n. -/
theorem numElementsCountsAdds : Obligations.NumElementsCountsAdds := by
  intro s t c hgen hrun
  induction hrun with
  | start => simp
  | other _ hk ht hno hctx =>
    rcases step_keepsFilter_ctx hk ht with ⟨h, -⟩ | ⟨-, hc⟩
    · rw [h, hctx]
    · exact absurd hc hno
  | add _ hk ht hc hctx =>
    rcases step_keepsFilter_ctx hk ht with ⟨-, hno⟩ | ⟨h, -⟩
    · exact absurd hc (hno (by rw [hctx]; exact hgen))
    · rw [h, hctx, BitVec.add_assoc, BitVec.ofNat_add]
      rfl

/-! ## Filters that only grow (42_filter_core.md R161) -/

/-- Of the successful ends only those of CONSTRUCT_FIXED and LOAD_FIXED stage a cleared bit of FA
(43_fixed_filter.md R185). -/
theorem success_keeps_faBits {s : State} {w : Staged} {r : Bool} {i : Instr} (hs : Success s w r i)
    (hc : i ≠ .constructFixed) (hl : i ≠ .loadFixed) {a : Byte} {b : Nat}
    (h : faBit s.fa a b = true) : faBit w.fa a b = true := by
  cases i with
  | constructFixed => exact absurd rfl hc
  | loadFixed => exact absurd rfl hl
  | add =>
    obtain ⟨-, ⟨rfl, -⟩ | ⟨rfl, -⟩ | ⟨rfl, -⟩⟩ := hs
    · exact h
    · exact h
    · exact (faBit_foldl_setPair _ _ a b).mpr (.inl h)
  | test | testbit =>
    obtain ⟨rfl, -⟩ := hs
    exact h
  | construct | serialize | deserialize | setbit =>
    obtain ⟨-, rfl, -⟩ := hs
    exact h
  | discard =>
    obtain ⟨-, rfl⟩ := hs
    exact h

/-- The filter of t is that of s with nothing lost: the same context but for n, and every bit still set. -/
structure FilterGrows (s t : State) : Prop where
  ctx : ∃ n, t.ctx = { s.ctx with n := n }
  bits : ∀ b, bvBit s.bv b = true → bvBit t.bv b = true
  array : ∀ a b, faBit s.fa a b = true → faBit t.fa a b = true

theorem filterGrows_refl (s : State) : FilterGrows s s := ⟨⟨_, rfl⟩, fun _ => id, fun _ _ => id⟩

theorem FilterGrows.trans {s t u : State} (h : FilterGrows s t) (h' : FilterGrows t u) :
    FilterGrows s u := by
  obtain ⟨n, hn⟩ := h.ctx
  obtain ⟨n', hn'⟩ := h'.ctx
  exact ⟨⟨n', by rw [hn', hn]⟩, fun b => h'.bits b ∘ h.bits b, fun a b => h'.array a b ∘ h.array a b⟩

theorem step_filterGrows {s t : State} (hk : s.keepsFilter t) (ht : step s = .next t) :
    FilterGrows s t := by
  have hctx : ∃ n, t.ctx = { s.ctx with n := n } := by
    rcases step_keepsFilter_ctx hk ht with ⟨h, -⟩ | ⟨h, -⟩
    · exact ⟨_, h⟩
    · exact ⟨_, h⟩
  rcases step_keepsFilter_cases hk ht with ⟨-, hbv, hfa, -⟩ | ⟨i, w, r, -, hkeep, hs, rfl⟩
  · exact ⟨hctx, fun _ hb => hbv ▸ hb, fun _ _ hb => hfa ▸ hb⟩
  · have hne : ∀ j, replacesFilter j = true → i ≠ j := by
      rintro j hj rfl
      rw [hkeep] at hj
      cases hj
    exact ⟨hctx, fun _ => success_keeps_bits hs (hne _ rfl) (hne _ rfl),
      fun _ _ => success_keeps_faBits hs (hne _ rfl) (hne _ rfl)⟩

theorem filterRun_grows {s t : State} {c : Nat} (h : FilterRun s c t) : FilterGrows s t := by
  induction h with
  | start => exact filterGrows_refl _
  | other _ hk ht _ ih => exact ih.trans (step_filterGrows hk ht)
  | add _ hk ht _ ih => exact ih.trans (step_filterGrows hk ht)

/-- The live filter has every bit of the key set: what TEST of the key asks (42_filter_core.md R153). -/
def HoldsKey (s : State) (key : List Byte) : Prop :=
  (s.ctx.mode = .gen ∧ s.ctx.m ≠ 0 ∧ genTest Config.params s key = true) ∨
  (s.ctx.mode = .fix ∧ fixedTest Config.params s key = true)

/-- A filter that grew still holds its keys: the key's positions depend on m and k alone. -/
theorem HoldsKey.of_grows {s t : State} {key : List Byte} (h : HoldsKey s key)
    (hg : FilterGrows s t) : HoldsKey t key := by
  obtain ⟨n, hctx⟩ := hg.ctx
  simp only [HoldsKey, genTest_eq, fixedTest_eq, decide_eq_true_eq, hctx] at h ⊢
  rcases h with ⟨hgen, hm, hset⟩ | ⟨hfix, hset⟩
  · exact .inl ⟨hgen, hm, fun pos hpos => hg.bits _ (hset pos hpos)⟩
  · exact .inr ⟨hfix, fun q hq => hg.array _ _ (hset q hq)⟩

theorem holdsKey_of_add {s t : State} (hlen : s.operands.len ≠ 0) (ht : exec .add s = .next t)
    (hok : t.err = .ok) : HoldsKey t s.key := by
  simp only [HoldsKey, genTest_eq, fixedTest_eq, decide_eq_true_eq]
  rcases exec_cases ht with ⟨e, rfl, herr, -⟩ | ⟨w, r, rfl, -, hs⟩
  · exact absurd hok herr
  · rcases hs with ⟨-, -, hempty⟩ | ⟨rfl, hgen, -, -, hm⟩ | ⟨rfl, hfix, -⟩
    · exact absurd hempty hlen
    · exact .inl ⟨hgen, hm, fun pos hpos => (bvBit_foldl_setBit _ _ _ _).mpr (.inr ⟨pos, hpos, rfl⟩)⟩
    · exact .inr ⟨hfix, fun q hq => (faBit_foldl_setPair _ _ _ _).mpr (.inr ⟨q, hq, rfl, rfl⟩)⟩

theorem exec_test_of_holdsKey {s : State} (h : HoldsKey s s.key) (hlen : s.operands.len ≠ 0)
    (hin : inBuf Config.params s.operands.addr.toNat s.operands.len.toNat) :
    exec .test s = .next (s.ended .ok true) := by
  rcases h with ⟨hgen, hm, hset⟩ | ⟨hfix, hset⟩
  · rw [exec_answer (i := .test) (keyChecks_gen _ _ _ hlen hin hgen hm), hset]
  · rw [exec_answer (i := .test) (keyChecks_fix _ _ _ hlen hin hfix), hset]

/-- Keys that are equal have equal lengths. -/
theorem len_eq_of_key_eq {s t : State} (h : s.key = t.key) : s.operands.len = t.operands.len :=
  BitVec.eq_of_toNat_eq (by rw [← length_key, h, length_key])

/-- Settles O23: the ADD makes the filter hold the key, and a run that keeps the filter lets it only grow. -/
theorem noFalseNegatives : Obligations.NoFalseNegatives := by
  intro s t u c hlen ht hok hrun hkey hin
  have hholds : HoldsKey u u.key :=
    hkey ▸ (holdsKey_of_add hlen ht hok).of_grows (filterRun_grows hrun)
  exact exec_test_of_holdsKey hholds (len_eq_of_key_eq hkey ▸ hlen) hin

end Sys2Proof.Proofs

/-! # The FixedFilter (43_fixed_filter.md R180 to R185) -/

namespace Sys2Proof.Proofs

open Sys2Proof.Machine Sys2Proof.Laws

/-! ## CONSTRUCT_FIXED -/

section FixedChecks

variable {s : State} (act : Completion)

theorem fixedChecks_invalid
    (h : s.operands.argM ≠ 2048 ∨ s.operands.argK = 0 ∨ 16 < s.operands.argK.toNat) :
    fixedChecks s act = raise s .invalidParameter := by
  rcases h with hm | hk
  · exact if_pos hm
  · rw [fixedChecks, if_pos hk, ite_self]

theorem fixedChecks_passed (hm : s.operands.argM = 2048) (hk0 : s.operands.argK ≠ 0)
    (hk : s.operands.argK.toNat ≤ 16) : fixedChecks s act = act := by
  rw [fixedChecks, if_neg (not_not_intro hm), if_neg (not_or.mpr ⟨hk0, Nat.not_lt.mpr hk⟩)]

end FixedChecks

/-- Settles O15: the checks on m and k, then the FIX context and the zero array. -/
theorem constructFixedFollowsItsRule : Obligations.ConstructFixedFollowsItsRule :=
  ⟨decode_encode .constructFixed, fun _ => ⟨fun h => exec_raise (fixedChecks_invalid _ h),
    fun hm hk0 hk => ⟨faZero,
      exec_succeed (i := .constructFixed) (fixedChecks_passed _ hm hk0 hk), faRead_faZero⟩⟩⟩

/-! ## No counter in FIX mode (R184) -/

/-- The one end that changes the context without replacing it, the counted ADD, belongs to GEN mode. -/
theorem success_ctx_of_fix {s : State} {w : Staged} {r : Bool} {i : Instr} (hs : Success s w r i)
    (hi : replacesFilter i = false) (hfix : s.ctx.mode = .fix) : w.ctx = s.ctx := by
  rcases success_ctx hs hi with ⟨hctx, -⟩ | ⟨-, rfl, -⟩
  · exact hctx
  · obtain ⟨-, ⟨rfl, -⟩ | ⟨-, hgen, -⟩ | ⟨rfl, -⟩⟩ := hs
    · rfl
    · cases hfix.symm.trans hgen
    · rfl

theorem step_keepsFilter_ctx_of_fix {s t : State} (hk : s.keepsFilter t) (ht : step s = .next t)
    (hfix : s.ctx.mode = .fix) : t.ctx = s.ctx := by
  rcases step_keepsFilter_cases hk ht with ⟨hctx, -⟩ | ⟨i, w, r, -, hkeep, hs, rfl⟩
  · exact hctx
  · exact success_ctx_of_fix (s := s.advance) hs hkeep hfix

theorem filterRun_ctx_of_fix {s t : State} {c : Nat} (h : FilterRun s c t)
    (hfix : s.ctx.mode = .fix) : t.ctx = s.ctx := by
  induction h with
  | start => rfl
  | other _ hk ht _ ih | add _ hk ht _ ih =>
    rw [step_keepsFilter_ctx_of_fix hk ht (by rw [ih, hfix]), ih]

/-- Settles O25: the run keeps the context, and register N is a view of it. -/
theorem fixedFilterHasNoCounter : Obligations.FixedFilterHasNoCounter := by
  intro s t c hfix hn hrun
  have hctx : t.ctx = s.ctx := filterRun_ctx_of_fix hrun hfix
  exact ⟨hctx, by rw [State.readReg, hctx, hn]⟩

/-! ## Bits of FA that are set stay set (R185) -/

theorem exec_keeps_faBits {i : Instr} {s t : State} (ht : exec i s = .next t)
    (hc : i ≠ .constructFixed) (hl : i ≠ .loadFixed) {a : Byte} {b : Nat}
    (h : faBit s.fa a b = true) : faBit t.fa a b = true := by
  rcases exec_cases ht with ⟨e, rfl, -⟩ | ⟨w, r, rfl, hs⟩
  · exact h
  · exact success_keeps_faBits hs hc hl h

/-- Settles O29: a step leaves FA alone, resets, or executes a command, and every command but the two keeps
the bits that are set. -/
theorem fixedBitsAreNeverCleared : Obligations.FixedBitsAreNeverCleared := by
  intro s t a b ht hset hclear
  rcases step_filter ht with ⟨-, -, hfa, -⟩ | ⟨i, hi, he⟩ | hreset
  · rw [hfa, hset] at hclear
    cases hclear
  · by_cases hc : i = .constructFixed
    · exact .inl (hc ▸ hi)
    by_cases hl : i = .loadFixed
    · exact .inr (.inl (hl ▸ hi))
    rw [exec_keeps_faBits he hc hl hset] at hclear
    cases hclear
  · exact .inr (.inr hreset)

end Sys2Proof.Proofs

/-! # The Codec (44_codec.md R200 to R214) -/

namespace Sys2Proof.Proofs

open Sys2Proof.Machine Sys2Proof.Laws

/-! ## SERIALIZE -/

section Serialize

variable {s : State} (hmode : s.ctx.mode ≠ .none)
include hmode

theorem exec_serialize_of_outside (h : Config.params.bufBytes < s.operands.addr.toNat + liveLength s) :
    exec .serialize s = .next (s.ended .bufferRange false) :=
  exec_raise (i := .serialize) (by rw [completion, serializeOn, if_neg hmode, if_pos (Nat.not_le.mpr h)])

theorem exec_serialize_of_inBuf (h : inBuf Config.params s.operands.addr.toNat (liveLength s)) :
    exec .serialize s = .next ({ s with
      buf := Memory.writeBytes s.buf s.operands.addr.toNat (liveImage Config.params s)
      outLen := BitVec.ofNat 64 (liveLength s) }.ended .ok false) :=
  exec_succeed (i := .serialize) (by rw [completion, serializeOn, if_neg hmode, if_neg (not_not_intro h)])

/-- A SERIALIZE that succeeds leaves the image in BUF and its exact length in OUT_LEN (44_codec.md R200). -/
theorem serialize_stores {t : State} (h : inBuf Config.params s.operands.addr.toNat (liveLength s))
    (ht : exec .serialize s = .next t) :
    t.buf = Memory.writeBytes s.buf s.operands.addr.toNat (liveImage Config.params s) ∧
      t.outLen.toNat = liveLength s := by
  rw [exec_serialize_of_inBuf hmode h] at ht
  cases ht
  have hlt : liveLength s < 2 ^ 64 := (Nat.le_add_left _ _).trans_lt (h.trans_lt (bufBytes_lt _))
  exact ⟨rfl, Nat.mod_eq_of_lt hlt⟩

end Serialize

theorem ne_none_of_gen {s : State} (h : s.ctx.mode = .gen) : s.ctx.mode ≠ .none := by simp [h]

theorem ne_none_of_fix {s : State} (h : s.ctx.mode = .fix) : s.ctx.mode ≠ .none := by simp [h]

theorem operands_of_idle {s : State} (h : s.inFlight = none) : s.operands = s.ops := by
  rw [State.operands, h]

theorem read_writeBytes_getElem? (m : Memory) (a : Nat) (b : List Byte) {i : Nat} (h : i < b.length) :
    Memory.read (Memory.writeBytes m a b) (a + i) = b[i]? := by
  rw [read_writeBytes_inside _ _ _ h, List.getElem?_eq_getElem h]

/-- Writing a byte string where it already stands changes no byte. -/
theorem read_writeBytes_again (m : Memory) (a : Nat) (b : List Byte) (i : Nat) :
    Memory.read (Memory.writeBytes (Memory.writeBytes m a b) a b) i =
      Memory.read (Memory.writeBytes m a b) i := by
  by_cases h : a ≤ i ∧ i < a + b.length
  · obtain ⟨j, rfl⟩ := Nat.exists_eq_add_of_le h.1
    rw [read_writeBytes_inside _ _ _ (by omega), read_writeBytes_inside _ _ _ (by omega)]
  · exact read_writeBytes_outside _ _ _ (by omega)

/-- The first SERIALIZE keeps all that the second one's image and region are made of (44_codec.md R200). -/
theorem serialize_again {s t : State} (hidle : s.inFlight = none) (ht : exec .serialize s = .next t) :
    ∃ u, exec .serialize t = .next u ∧ u.outLen = t.outLen ∧
      ∀ a, Memory.read u.buf a = Memory.read t.buf a := by
  have hops := operands_of_idle hidle
  rcases serializeOn_cases Config.params s with ⟨e, hraise, -⟩ | ⟨-, hmode, hin⟩
  · rw [exec_raise (i := .serialize) hraise] at ht
    cases ht
    have hagain : completion (s.ended e false) .serialize = raise (s.ended e false) e :=
      (completion_congr (s := s.ended e false) (t := s) rfl rfl hops.symm .serialize).trans hraise
    exact ⟨_, exec_raise hagain, rfl, fun _ => rfl⟩
  · rw [exec_serialize_of_inBuf hmode hin] at ht
    cases ht
    rw [hops] at hin ⊢
    exact ⟨_, exec_serialize_of_inBuf hmode hin, rfl, fun _ => read_writeBytes_again ..⟩

theorem getElem?_fixedImage (fa : Vector Byte 256) (i : Byte) :
    (fixedImage fa)[i.toNat]? = some (faRead fa i) := by
  simp [fixedImage, faRead, i.isLt]

/-- Settles O33: the checks, then the image of the live filter written at ADDR. -/
theorem serializeFollowsItsRule : Obligations.SerializeFollowsItsRule := by
  refine ⟨decode_encode .serialize, fun s => ⟨fun h => exec_noFilter h (by simp),
    fun h hout => ?_, fun h hout => ?_, fun h hin => ?_, fun h hin => ?_,
    fun t => serialize_again⟩⟩
  · exact exec_serialize_of_outside (ne_none_of_gen h) (by rwa [liveLength_gen h])
  · exact exec_serialize_of_outside (ne_none_of_fix h) (by rwa [liveLength_fix h])
  · have hlen := length_generalImage Config.params s.ctx s.bv
    refine ⟨Memory.writeBytes s.buf s.operands.addr.toNat (generalImage Config.params s.ctx s.bv),
      ?_, fun i hi => read_writeBytes_getElem? _ _ _ (hlen ▸ hi),
      fun a ha => read_writeBytes_outside _ _ _ (hlen ▸ ha)⟩
    rw [exec_serialize_of_inBuf (ne_none_of_gen h) (by rwa [liveLength_gen h]), liveLength_gen h,
      liveImage_gen h]
    rfl
  · have hlen : (fixedImage s.fa).length = 256 := Vector.length_toList
    refine ⟨Memory.writeBytes s.buf s.operands.addr.toNat (fixedImage s.fa),
      ?_, fun i => ?_, fun a ha => read_writeBytes_outside _ _ _ (hlen ▸ ha)⟩
    · rw [exec_serialize_of_inBuf (ne_none_of_fix h) (by rwa [liveLength_fix h]), liveLength_fix h,
        liveImage_fix h]
      rfl
    · rw [read_writeBytes_getElem? _ _ _ (hlen ▸ i.isLt), getElem?_fixedImage]

/-! ## The checks on an image, in the order of R203 and R204 -/

section ImageError

variable {p : Params} {b : List Byte} {l : Nat}

theorem imageError_short (h : l < 32) : imageError p b l = some .truncatedData := if_pos h

variable (h : 32 ≤ l)
include h

theorem imageError_badChecksum (hsum : digest p (b.take (l - 32)) ≠ b.drop (l - 32)) :
    imageError p b l = some .hashMismatch := by
  rw [imageError, if_neg (Nat.not_lt.mpr h), if_pos hsum]

/-- Past the checksum, the lengths and then the capacity decide. -/
theorem imageError_goodChecksum (hsum : digest p (b.take (l - 32)) = b.drop (l - 32)) :
    imageError p b l =
      if l < 56 then some .truncatedData
      else if l - 56 < 8 * wordCount (imageM b) then some .truncatedData
      else if p.mMax < (imageM b).toNat then some .capacityExceeded
      else none := by
  have hheader : l - 32 < 24 ↔ l < 56 := by omega
  rw [imageError, if_neg (Nat.not_lt.mpr h), if_neg (not_not_intro hsum), Nat.sub_sub]
  simp only [hheader]

theorem imageError_hashMismatch_iff :
    imageError p b l = some .hashMismatch ↔ digest p (b.take (l - 32)) ≠ b.drop (l - 32) := by
  refine ⟨fun he hsum => ?_, imageError_badChecksum h⟩
  rw [imageError_goodChecksum h hsum] at he
  split_ifs at he
  all_goals cases he

end ImageError

/-! ## DESERIALIZE -/

theorem len_of_image_append {s : State} {pre sum : List Byte} (himage : s.image = pre ++ sum)
    (hsum : sum.length = 32) : s.operands.len.toNat = pre.length + 32 := by
  rw [← length_image, himage, List.length_append, hsum]

theorem exec_deserialize_of_outside {s : State}
    (h : Config.params.bufBytes < s.operands.addr.toNat + s.operands.len.toNat) :
    exec .deserialize s = .next (s.ended .bufferRange false) :=
  exec_raise (i := .deserialize) (if_pos (Nat.not_le.mpr h))

section Deserialize

variable {s : State} (hin : inBuf Config.params s.operands.addr.toNat s.operands.len.toNat)
include hin

theorem exec_deserialize_of_error {e : ErrorCode}
    (h : imageError Config.params s.image s.operands.len.toNat = some e) :
    exec .deserialize s = .next (s.ended e false) :=
  exec_raise (i := .deserialize) (by rw [completion, deserializeOn, if_neg (not_not_intro hin), h])

theorem exec_deserialize_of_loads
    (h : imageError Config.params s.image s.operands.len.toNat = none) :
    exec .deserialize s = .next ((s.apply (loadImage s s.image)).ended .ok false) :=
  exec_succeed (i := .deserialize) (by rw [completion, deserializeOn, if_neg (not_not_intro hin), h])

/-- The code is the image's error, if it has one. -/
theorem exec_deserialize_err :
    ∃ t, exec .deserialize s = .next t ∧ (t.err ≠ .ok → t = s.ended t.err false) ∧
      t.err = (imageError Config.params s.image s.operands.len.toNat).getD .ok := by
  cases h : imageError Config.params s.image s.operands.len.toNat with
  | none => exact ⟨_, exec_deserialize_of_loads hin h, fun hne => absurd rfl hne, rfl⟩
  | some e => exact ⟨_, exec_deserialize_of_error hin h, fun _ => rfl, rfl⟩

theorem exec_deserialize_hashMismatch_iff {pre sum : List Byte} (himage : s.image = pre ++ sum)
    (hsum : sum.length = 32) :
    exec .deserialize s = .next (s.ended .hashMismatch false) ↔ digest Config.params pre ≠ sum := by
  have hlen := len_of_image_append himage hsum
  have hiff : imageError Config.params s.image s.operands.len.toNat = some .hashMismatch ↔
      digest Config.params pre ≠ sum := by
    rw [imageError_hashMismatch_iff (by omega), hlen, Nat.add_sub_cancel, himage, List.take_left,
      List.drop_left]
  refine ⟨fun h => hiff.mp ?_, fun h => exec_deserialize_of_error hin (hiff.mpr h)⟩
  obtain ⟨t, ht, -, herr⟩ := exec_deserialize_err hin
  rw [h] at ht
  cases ht
  cases he : imageError Config.params s.image s.operands.len.toNat with
  | none => rw [he] at herr; cases herr
  | some e => rw [he] at herr; exact congrArg some herr.symm

end Deserialize

/-- Settles O34: each clause is one outcome of the checks on the image. -/
theorem deserializeErrorsInOrder : Obligations.DeserializeErrorsInOrder := by
  rintro s L rfl
  refine ⟨exec_deserialize_of_outside,
    fun hin h => exec_deserialize_of_error hin (imageError_short h),
    fun hin h hsum => exec_deserialize_of_error hin (imageError_badChecksum h hsum),
    fun hin h hsum hshort => exec_deserialize_of_error hin ?_, fun hin h hsum => ?_⟩
  · rw [imageError_goodChecksum h hsum, if_pos hshort]
  · obtain ⟨t, ht, hended, herr⟩ := exec_deserialize_err hin
    refine ⟨t, ht, hended, ?_⟩
    rw [herr, imageError_goodChecksum (by omega) hsum, if_neg (Nat.not_lt.mpr h)]
    simp only [apply_ite (Option.getD · ErrorCode.ok)]
    rfl

/-- Settles O35: the image has no error, and what it loads reads back as its words. -/
theorem deserializeLoadsTheImage : Obligations.DeserializeLoadsTheImage := by
  refine ⟨decode_encode .deserialize, ?_⟩
  rintro s L m rfl rfl hin hlen hsum hwords hcap
  exact ⟨_, exec_deserialize_of_loads hin ((imageError_none_iff ..).mpr ⟨hlen, hsum, hwords, hcap⟩),
    fun _ => load_imageWords_read ..⟩

/-! ## LOAD_FIXED -/

section LoadFixed

variable {s : State} (hm : s.operands.argM = 2048) (hk0 : s.operands.argK ≠ 0)
  (hk : s.operands.argK.toNat ≤ 16)
include hm hk0 hk

theorem exec_loadFixed_of_size (hlen : s.operands.len ≠ 256) :
    exec .loadFixed s = .next (s.ended .sizeMismatch false) :=
  exec_raise (i := .loadFixed) (by
    rw [completion, loadFixedOn, fixedChecks_passed _ hm hk0 hk, if_pos hlen])

variable (hlen : s.operands.len = 256)
include hlen

theorem exec_loadFixed_of_outside (h : Config.params.bufBytes < s.operands.addr.toNat + 256) :
    exec .loadFixed s = .next (s.ended .bufferRange false) :=
  exec_raise (i := .loadFixed) (by
    rw [completion, loadFixedOn, fixedChecks_passed _ hm hk0 hk, if_neg (not_not_intro hlen),
      if_pos (Nat.not_le.mpr h)])

theorem exec_loadFixed_of_inBuf (h : inBuf Config.params s.operands.addr.toNat 256) :
    exec .loadFixed s = .next ({ s with
      ctx := ⟨.fix, 2048, s.operands.argK, 0⟩
      fa := faOfBytes (s.memRead 256) }.ended .ok false) :=
  exec_succeed (i := .loadFixed) (by
    rw [completion, loadFixedOn, fixedChecks_passed _ hm hk0 hk, if_neg (not_not_intro hlen),
      if_neg (not_not_intro h)])

end LoadFixed

/-- Byte i of the array LOAD_FIXED stages (44_codec.md R210). -/
theorem faRead_faOfBytes_memRead (s : State) (i : Byte) :
    faRead (faOfBytes (s.memRead 256)) i =
      Memory.readAny s.buf s.draws (s.operands.addr.toNat + i.toNat) := by
  have hi : i.toNat < (s.memRead 256).length := by
    rw [State.memRead, length_readBytes]
    exact i.isLt
  rw [faRead_faOfBytes, List.getD_eq_getElem _ _ hi]
  exact getElem_readBytes ..

/-- Settles O36: the checks in D40's order, then the array is the region's bytes. -/
theorem loadFixedFollowsItsRule : Obligations.LoadFixedFollowsItsRule :=
  ⟨decode_encode .loadFixed, fun s => ⟨fun h => exec_raise (fixedChecks_invalid _ h),
    exec_loadFixed_of_size, exec_loadFixed_of_outside,
    fun hm hk0 hk hlen hin => ⟨_, exec_loadFixed_of_inBuf hm hk0 hk hlen hin,
      faRead_faOfBytes_memRead s⟩⟩⟩

/-! ## Round trips (R212) -/

theorem faOfBytes_fixedImage (fa : Vector Byte 256) : faOfBytes (fixedImage fa) = fa :=
  fa_ext fun i => by
    rw [faRead_faOfBytes, List.getD_eq_getElem?_getD, getElem?_fixedImage, Option.getD_some]

/-- Settles O38: the region LOAD_FIXED reads holds the bytes of FA. -/
theorem fixedRoundTrip : Obligations.FixedRoundTrip := by
  intro s t u hfix hm hk0 hk hn hin ht hbuf haddr hlen hM hK
  obtain ⟨hstored, -⟩ := serialize_stores (ne_none_of_fix hfix) (by rwa [liveLength_fix hfix]) ht
  have hread : u.memRead 256 = fixedImage s.fa := by
    have h256 : 256 = (fixedImage s.fa).length := Vector.length_toList.symm
    rw [State.memRead, hbuf, hstored, haddr, liveImage_fix hfix, h256, readBytes_writeBytes]
  refine ⟨_, exec_loadFixed_of_inBuf hM (hK ▸ hk0) (hK ▸ hk) hlen (haddr ▸ hin), rfl, ?_, ?_⟩
  · show Ctx.mk .fix 2048 u.operands.argK 0 = s.ctx
    rw [hK, ← hm, ← hn, ← hfix]
  · show faOfBytes (u.memRead 256) = s.fa
    rw [hread, faOfBytes_fixedImage]

theorem serialize_stores_generalImage {s t : State} (hgen : s.ctx.mode = .gen)
    (hin : inBuf Config.params s.operands.addr.toNat (imageLength s.ctx.m))
    (ht : exec .serialize s = .next t) :
    t.buf = Memory.writeBytes s.buf s.operands.addr.toNat (generalImage Config.params s.ctx s.bv) ∧
      t.outLen.toNat = imageLength s.ctx.m := by
  rw [← liveLength_gen hgen, ← liveImage_gen hgen]
  exact serialize_stores (ne_none_of_gen hgen) (by rwa [liveLength_gen hgen]) ht

/-- The image of a filter that fits this part's BV has no error (44_codec.md R212). -/
theorem imageError_generalImage (p : Params) {c : Ctx} (bv : Buckets) (hm : c.m.toNat ≤ p.mMax) :
    imageError p (generalImage p c bv) (imageLength c.m) = none := by
  have hprefix : imageLength c.m - 32 = 24 + 8 * wordCount c.m := Nat.add_sub_cancel ..
  have htake := take_generalImage p c bv
  obtain ⟨hM, -⟩ := image_fields htake
  rw [imageError_none_iff, hprefix, htake, drop_generalImage, hM]
  exact ⟨by omega, rfl, by omega, hm⟩

/-- A TEST that ends with code 0x00 on a general filter: false on the empty key, else `genTest`. -/
theorem test_result_of_gen {s t : State} (hgen : s.ctx.mode = .gen) (ht : exec .test s = .next t)
    (hok : t.err = .ok) :
    t.result = (if s.operands.len = 0 then false else genTest Config.params s s.key) ∧
      (s.operands.len ≠ 0 → s.ctx.m ≠ 0) := by
  rcases exec_cases ht with ⟨e, rfl, herr, -⟩ | ⟨w, r, rfl, -, hs⟩
  · exact absurd hok herr
  · rcases hs with ⟨hr, -, hlen⟩ | ⟨hr, -, hlen, -, hm⟩ | ⟨-, hfix, -⟩
    · exact ⟨hr.trans (if_pos hlen).symm, absurd hlen⟩
    · exact ⟨hr.trans (if_neg hlen).symm, fun _ => hm⟩
    · cases hgen.symm.trans hfix

/-- TEST sees the filter's context, its live words and the key, and nothing else (42_filter_core.md R153). -/
theorem test_result_congr {x y x' y' : State} (hgen : x.ctx.mode = .gen) (hctx : y.ctx = x.ctx)
    (hwords : ∀ w < wordCount x.ctx.m, Buckets.read y.bv w = Buckets.read x.bv w)
    (hkey : x.key = y.key) (hx : exec .test x = .next x') (hy : exec .test y = .next y')
    (hxok : x'.err = .ok) (hyok : y'.err = .ok) : x'.result = y'.result := by
  obtain ⟨hr, hm⟩ := test_result_of_gen hgen hx hxok
  obtain ⟨hr', -⟩ := test_result_of_gen (hctx ▸ hgen) hy hyok
  rw [hr, hr', len_eq_of_key_eq hkey]
  split
  · rfl
  · next hne =>
    have htest := funext (testBit_congr (hm (len_eq_of_key_eq hkey ▸ hne)) hwords)
    rw [genTest, genTest, hctx, hkey, htest]

/-- Settles O37: DESERIALIZE reads the image SERIALIZE wrote, whose fields are the context and the words. -/
theorem generalRoundTrip : Obligations.GeneralRoundTrip := by
  intro s t u hgen hm hin ht hbuf haddr hlen
  obtain ⟨hstored, hout⟩ := serialize_stores_generalImage hgen hin ht
  have hulen : u.operands.len.toNat = imageLength s.ctx.m := by rw [hlen, hout]
  have himage : u.image = generalImage Config.params s.ctx s.bv :=
    image_of_written (hbuf.trans hstored) (by rw [haddr]) (by rw [hulen, length_generalImage])
  obtain ⟨hM, hK, hN, hW⟩ := image_fields (take_generalImage Config.params s.ctx s.bv)
  have hloads : imageError Config.params u.image u.operands.len.toNat = none := by
    rw [himage, hulen, imageError_generalImage _ _ hm]
  have hctx : (loadImage u u.image).ctx = s.ctx := by
    rw [loadImage, himage, hM, hK, hN, ← hgen]
  have hwords : ∀ w < wordCount s.ctx.m,
      Buckets.read (loadImage u u.image).bv w = Buckets.read s.bv w := by
    intro w hw
    rw [loadImage, himage, hM, hW, load_words_read, if_pos hw]
  refine ⟨_, exec_deserialize_of_loads (by rw [haddr, hulen]; exact hin) hloads, rfl, hctx, hwords, ?_⟩
  intro x y x' y' hxc hxb hyc hyb hkey hx hy
  refine test_result_congr (hxc ▸ hgen) (hyc.trans (hctx.trans hxc.symm)) ?_ hkey hx hy
  rw [hxc, hxb, hyb]
  exact hwords

/-! ## Damaged images (R213, R214) -/

/-- Writing one byte of a region changes that byte of the string read from it. -/
theorem readBytes_write (m : Memory) (d a n j : Nat) (b : Byte) :
    Memory.readBytes (Memory.write m (a + j) b) d a n = (Memory.readBytes m d a n).set j b := by
  refine List.ext_getElem (by simp) fun i h1 h2 => ?_
  rw [getElem_readBytes, List.getElem_set, Memory.readAny]
  split
  · next h => rw [h, read_write_same, Option.getD_some]
  · next h => rw [read_write_other _ _ (by omega), getElem_readBytes, Memory.readAny]

/-- What DESERIALIZE reads from a written region one byte of which was written again. -/
theorem image_of_rewritten_byte {s : State} {m : Memory} {a j : Nat} {x : List Byte} {b : Byte}
    (hb : s.buf = Memory.write (Memory.writeBytes m a x) (a + j) b)
    (ha : s.operands.addr.toNat = a) (hl : s.operands.len.toNat = x.length) :
    s.image = x.set j b := by
  rw [State.image, State.memRead, hb, ha, hl, readBytes_write, readBytes_writeBytes]

/-- Replacing a byte by another value gives another string. -/
theorem set_ne_self {x : List Byte} {j : Nat} {b : Byte} (hj : j < x.length) (h : x[j]? ≠ some b) :
    x ≠ x.set j b := fun he => h (by rw [he, List.getElem?_set_self hj])

/-- Settles O39: the changed image is a prefix and a sum, one of them changed at j. -/
theorem checksumSensitivity : Obligations.ChecksumSensitivity := by
  rintro s t u j b X pre hgen rfl - hin ht hj hne hbuf haddr hlen rfl
  obtain ⟨hstored, hout⟩ := serialize_stores_generalImage hgen hin ht
  have hlength := length_generalImage Config.params s.ctx s.bv
  have hchanged : (generalImage Config.params s.ctx s.bv)[j]? ≠ some b := by
    rwa [hstored, read_writeBytes_inside _ _ _ (hlength ▸ hj), ← List.getElem?_eq_getElem] at hne
  have himage : u.image = (generalImage Config.params s.ctx s.bv).set j b :=
    image_of_rewritten_byte (by rw [hbuf, hstored]) (by rw [haddr]) (by rw [hlen, hout, hlength])
  have hin' : inBuf Config.params u.operands.addr.toNat u.operands.len.toNat := by
    rw [haddr, hlen, hout]
    exact hin
  have hprefix := length_imagePrefix s.ctx s.bv
  rw [generalImage] at himage hchanged
  refine ⟨fun hX => ?_, fun hX => ?_⟩
  · have hX' : (imagePrefix s.ctx s.bv).length ≤ j := hprefix ▸ hX
    rw [List.set_append_right _ _ hX'] at himage
    rw [List.getElem?_append_right hX'] at hchanged
    refine (exec_deserialize_hashMismatch_iff hin' himage (by simp)).mpr (set_ne_self ?_ hchanged)
    rw [length_digest, hprefix]
    exact Nat.sub_lt_left_of_lt_add hX hj
  · rw [List.set_append_left _ _ (hprefix ▸ hX)] at himage
    rw [exec_deserialize_hashMismatch_iff hin' himage (by simp), ← wordCount_eq,
      take_generalImage]
    exact Vector.toList_inj.not

/-- Settles O40: the header still holds m, and fewer than 8W bytes follow it. -/
theorem truncatedImagesAreRejected : Obligations.TruncatedImagesAreRejected := by
  rintro u c bv W n pre hW - hn hnW hpre himage hin
  have hlenpre : pre.length = 24 + 8 * W - n := by
    rw [hpre, List.length_take, length_generalImage, imageLength, wordCount_eq, ← hW]
    omega
  have hlen := len_of_image_append himage Vector.length_toList
  have hM : imageM u.image = c.m := by
    have h8 : slice pre 0 8 = slice (generalImage Config.params c bv) 0 8 := by
      rw [hpre, slice, slice, List.drop_zero, List.drop_zero, List.take_take, min_eq_left (by omega)]
    rw [imageM, himage, slice_append_left (by omega), h8, slice_generalImage _ _ (by omega),
      slice_imagePrefix_m, be64dec_be8]
  have hsum : digest Config.params (u.image.take (u.operands.len.toNat - 32)) =
      u.image.drop (u.operands.len.toNat - 32) := by
    rw [himage, hlen, Nat.add_sub_cancel, List.take_left, List.drop_left, digest]
  refine exec_deserialize_of_error hin ?_
  rw [imageError_goodChecksum (by omega) hsum, hM, wordCount_eq, ← hW, if_neg (by omega),
    if_pos (by omega)]

end Sys2Proof.Proofs

/-! # The life of a command and its ends (60_exceptions.md R230, R236, R240 to R244) -/

namespace Sys2Proof.Proofs

open Sys2Proof.Machine Sys2Proof.Laws

/-! ## Issue and execution (60_exceptions.md R240; 10_state.md R45) -/

/-- A command just issued acts as on the idle machine: it has latched the operand registers as they stand
(10_state.md R32), and its commit overwrites what the issue wrote, DONE and the word in flight. -/
theorem exec_issue {s : State} (h : s.inFlight = none) (w : Word) (i : Instr) :
    exec i (s.issue w) = exec i s := by
  have hops : (s.issue w).operands = s.operands := (operands_of_idle h).symm
  have hc := completion_congr (s := s.issue w) (t := s) rfl rfl hops i
  rw [exec_eq, exec_eq, hc]
  rfl

/-- Settles O7: the CMD write is an issue, and the engine's turn on the issued state is `exec` on the idle
one. -/
theorem splitStepsAgreeWithOneTransition : Obligations.SplitStepsAgreeWithOneTransition := by
  intro s i rest ha hidle
  have hissue : step s = .next (s.advance.issue (encode i)) := by
    rw [step_writeReg .cmd ha, State.writeReg, writeIdle_of_idle (s := s.advance) hidle]
  have hruns : (s.advance.issue (encode i)).runs i :=
    ⟨.inr (by rw [issue_agenda, advance_agenda, ha]; rfl), _, rfl, decode_encode i⟩
  refine ⟨_, hissue, rfl, rfl, ?_⟩
  rw [step_of_runs hruns, advance_of_cons ha]
  exact exec_issue (s := { s with agenda := rest, draws := s.draws + 2 }) (inFlight_of_idle hidle) _ i

/-- Settles O4: the bookkeeping is `State.advance`. -/
theorem stepRunsTheDecodedCommand : Obligations.StepRunsTheDecodedCommand :=
  fun _ _ hruns => step_of_runs hruns

/-- A 64-bit table word that stands for a command is the command's encoding (30_encoding.md R95). -/
theorem decodeTableWord_eq_some {w : Nat} {i : Instr} (h : decodeTableWord 64 w = some i) :
    BitVec.ofNat 64 (w % 2 ^ 64) = encode i := by
  have hlt : w % 2 ^ 64 < 2 ^ 64 := Nat.mod_lt _ (by decide)
  rw [decodeTableWord, if_pos hlt] at h
  refine (decodesExactlyItsEncoding _ _).mp ?_
  cases hd : decode (BitVec.ofNat 64 (w % 2 ^ 64)) with
  | ok j => rw [hd] at h; exact congrArg Except.ok (Option.some.inj h)
  | error r => rw [hd] at h; cases h

/-- Settles O5: the word placed in flight is the command's encoding, and the engine's turn comes first. -/
theorem fetchedWordRunsNext : Obligations.FetchedWordRunsNext := by
  intro s w i h
  have hruns : (s.withFetchWord 64 w).runs i :=
    ⟨.inr rfl, _, rfl, by rw [decodeTableWord_eq_some h, decode_encode]⟩
  rw [step_of_runs hruns, State.withFetchWord, decodeTableWord_eq_some h]
  rfl

/-! ## What a command may write (60_exceptions.md R241) -/

/-- Staged writes and a result that a command may end with: each field it changes is one of its own
(10_state.md R29, R37, R39 to R41; 20_memory.md R60). -/
structure WritesOnlyItsOwn (s : State) (w : Staged) (r : Bool) (i : Instr) : Prop where
  result : r = true → i = .test ∨ i = .testbit
  outLen : w.outLen ≠ s.outLen → i = .serialize
  buf : w.buf ≠ s.buf → i = .serialize
  bv : w.bv ≠ s.bv → i ∈ [.construct, .add, .deserialize, .setbit]
  fa : w.fa ≠ s.fa → i ∈ [.constructFixed, .add, .loadFixed]
  ctx : w.ctx ≠ s.ctx → i = .add ∨ replacesFilter i = true

theorem writesOnlyItsOwn_staged (s : State) (i : Instr) : WritesOnlyItsOwn s s.staged false i where
  result := nofun
  outLen h := absurd rfl h
  buf h := absurd rfl h
  bv h := absurd rfl h
  fa h := absurd rfl h
  ctx h := absurd rfl h

theorem success_writesOnlyItsOwn {s : State} {w : Staged} {r : Bool} {i : Instr}
    (hs : Success s w r i) : WritesOnlyItsOwn s w r i := by
  have hw := writesOnlyItsOwn_staged s i
  cases i with
  | construct | deserialize =>
    obtain ⟨rfl, rfl, -⟩ := hs
    exact { hw with bv := fun _ => by decide, ctx := fun _ => .inr rfl }
  | constructFixed | loadFixed =>
    obtain ⟨rfl, rfl, -⟩ := hs
    exact { hw with fa := fun _ => by decide, ctx := fun _ => .inr rfl }
  | add =>
    obtain ⟨rfl, ⟨rfl, -⟩ | ⟨rfl, -⟩ | ⟨rfl, -⟩⟩ := hs
    · exact hw
    · exact { hw with bv := fun _ => by decide, ctx := fun _ => .inl rfl }
    · exact { hw with fa := fun _ => by decide }
  | test =>
    obtain ⟨rfl, -⟩ := hs
    exact { hw with result := fun _ => .inl rfl }
  | testbit =>
    obtain ⟨rfl, -⟩ := hs
    exact { hw with result := fun _ => .inr rfl }
  | serialize =>
    obtain ⟨rfl, rfl, -⟩ := hs
    exact { hw with buf := fun _ => rfl, outLen := fun _ => rfl }
  | setbit =>
    obtain ⟨rfl, rfl, -⟩ := hs
    exact { hw with bv := fun _ => by decide }
  | discard =>
    obtain ⟨rfl, rfl⟩ := hs
    exact { hw with ctx := fun _ => .inr rfl }

/-- Every command ends with staged writes of its own applied, which are none where it fails. -/
theorem exec_writesOnlyItsOwn (i : Instr) (s : State) :
    ∃ w e r, exec i s = .next ((s.apply w).ended e r) ∧ WritesOnlyItsOwn s w r i ∧
      (r = true → e = .ok) := by
  rcases exec_cases (exec_eq i s) with ⟨e, ht, -⟩ | ⟨w, r, ht, hs⟩
  · exact ⟨s.staged, e, false, (exec_eq i s).trans (congrArg _ ht), writesOnlyItsOwn_staged s i, nofun⟩
  · exact ⟨w, .ok, r, (exec_eq i s).trans (congrArg _ ht), success_writesOnlyItsOwn hs, fun _ => rfl⟩

/-- Settles O9: the end of a command writes STATUS and the staged writes, and these are the command's own. -/
theorem everyCommandCompletes : Obligations.EveryCommandCompletes := by
  intro i s
  obtain ⟨w, e, r, ht, hw, hok⟩ := exec_writesOnlyItsOwn i s
  exact ⟨_, ht, rfl, rfl, Bool.true_and _, rfl, rfl, rfl, rfl, rfl, rfl,
    fun hr => ⟨hok hr, hw.result hr⟩, hw.outLen, hw.buf, hw.bv, hw.fa, hw.ctx⟩

/-! ## Errors (60_exceptions.md R230, R242) -/

/-- Settles O10: of the ends of a command only an error leaves an error code, and it writes STATUS alone. -/
theorem failingCommandsChangeOnlyStatus : Obligations.FailingCommandsChangeOnlyStatus := by
  intro i s t ht herr
  rcases exec_cases ht with ⟨e, rfl, -⟩ | ⟨w, r, rfl, -⟩
  · rfl
  · exact absurd rfl herr

theorem mem_raisedBy_ok (i : Instr) : i ∈ ErrorCode.ok.raisedBy := by cases i <;> decide

theorem mem_raisedBy_of_exec {i : Instr} {s t : State} (ht : exec i s = .next t) : i ∈ t.err.raisedBy := by
  rcases exec_cases ht with ⟨e, rfl, -, he⟩ | ⟨w, r, rfl, -⟩
  · exact he
  · exact mem_raisedBy_ok i

/-- Settles O11: the codes are as the table writes them, each end of a command has a code the table lists for
it, and an illegal word ends in IllegalCommand on the engine's turn. -/
theorem errorCodesAndWhoRaisesThem : Obligations.ErrorCodesAndWhoRaisesThem :=
  ⟨rfl, rfl, rfl, rfl, rfl, rfl, rfl, rfl, rfl, rfl, rfl, fun _ _ _ => mem_raisedBy_of_exec,
    fun _ _ _ hturn hf hd => ⟨_, step_of_illegal hturn hf hd, rfl⟩⟩

/-! ## Steps that have a next state (60_exceptions.md R240; 30_encoding.md R96) -/

theorem wordAccess_of_register {p : Params} {a : Nat} (hlt : a < 0x1000) (h8 : a % 8 = 0)
    (act : Nat → State) : wordAccess p a act = .next (act a) := by
  simp only [wordAccess, window_register hlt, h8, if_true]

theorem byteAccess_of_buffer {p : Params} {i : Nat} (hi : i < p.bufBytes) (act : Nat → State) :
    byteAccess p (0x10000 + i) act = .next (act i) := by
  simp only [byteAccess, window_buffer hi]

theorem exists_byteAccess_next {p : Params} {a : Nat} (h : 0x10000 ≤ a ∧ a < 0x10000 + p.bufBytes)
    (act : Nat → State) : ∃ t, byteAccess p a act = .next t := by
  obtain ⟨i, rfl⟩ := Nat.exists_eq_add_of_le h.1
  exact ⟨_, byteAccess_of_buffer (by omega) act⟩

/-- A host access has a step exactly when its form is one of those of 30_encoding.md R96. -/
theorem exists_hostAccess_next_iff {p : Params} {s : State} {a : Access} :
    (∃ t, hostAccess p s a = .next t) ↔ a.supported p := by
  constructor
  · rintro ⟨t, ht⟩
    rcases hostAccess_next ht with ⟨off, v, rfl, hlt, h8, -⟩ | ⟨off, rfl, hlt, h8, -⟩ |
      ⟨i, b, rfl, hi, -⟩ | ⟨i, rfl, hi, -⟩
    · exact ⟨hlt, h8⟩
    · exact ⟨hlt, h8⟩
    · exact ⟨Nat.le_add_right _ i, Nat.add_lt_add_left hi _⟩
    · exact ⟨Nat.le_add_right _ i, Nat.add_lt_add_left hi _⟩
  · intro h
    cases a with
    | w64 | r64 => exact ⟨_, wordAccess_of_register h.1 h.2 _⟩
    | w8 | r8 => exact exists_byteAccess_next h _
    | otherWidth => exact h.elim

/-- The engine's turn always ends: idle, in a command's commit, or with IllegalCommand. -/
theorem exists_engineTurn_next (s : State) : ∃ t, engineTurn exec s = .next t := by
  cases hf : s.inFlight with
  | none => exact ⟨s, engineTurn_of_idle hf⟩
  | some f =>
    cases hd : decode f.word with
    | ok i => exact ⟨_, engineTurn_of_legal hf hd⟩
    | error r => exact ⟨_, engineTurn_of_illegal hf hd⟩

/-- Without events the engine executes what is in flight, or stays as it is (A1, A12). -/
theorem exists_step_of_no_event {s : State} (h : s.agenda = []) : ∃ t, step s = .next t := by
  cases hf : s.inFlight with
  | none => exact ⟨s, by simp only [step, stepOn, h, busy_none hf, Bool.false_eq_true, if_false]⟩
  | some f =>
    rw [step_of_engineNext (.inl h) hf]
    exact exists_engineTurn_next _

/-- Settles O49: the head of the agenda decides; all but a host access always have a next state. -/
theorem onlyUnsupportedAccessesStop : Obligations.OnlyUnsupportedAccessesStop := by
  intro s
  match ha : s.agenda with
  | [] => exact iff_of_true (exists_step_of_no_event ha) nofun
  | .access a :: rest =>
    rw [step_of_access ha, exists_hostAccess_next_iff]
    simp
  | .wait :: rest => exact iff_of_true ⟨_, step_of_wait ha⟩ nofun
  | .engine :: rest =>
    have hstep : step s = engineTurn exec s.advance := by rw [step, stepOn, ha]
    exact iff_of_true (hstep ▸ exists_engineTurn_next _) nofun
  | .reset :: rest => exact iff_of_true ⟨s.advance.resetLine, by rw [step, stepOn, ha]⟩ nofun

/-! ## The interrupt output (60_exceptions.md R244; 10_state.md R33) -/

/-- Settles O45: both writes act on what irq is computed from, so irq follows at once. -/
theorem interruptFollowsDoneAndEnable : Obligations.InterruptFollowsDoneAndEnable := by
  refine fun s v rest => ⟨rfl, fun ha => ⟨_, ?_, rfl, rfl⟩, fun ha hclear =>
    ⟨_, step_writeReg .status ha, ?_⟩⟩
  · rw [step_writeReg .irqEn ha, State.writeReg, State.writeIrqEn, advance_of_cons ha]
  · rw [State.writeReg, writeStatus_eq, State.irq, hclear]
    simp

end Sys2Proof.Proofs

/-! # Reset and accesses while busy (70_reset_and_hazards.md R270, R271, R275) -/

namespace Sys2Proof.Proofs

open Sys2Proof.Machine Sys2Proof.Laws

/-! ## Host accesses while a command is in flight (R275; 10_state.md R30) -/

/-- While busy a register write reaches AWB, IRQ_EN and DONE alone, and DONE only to clear it. -/
theorem writeOffset_of_busy {s : State} (h : s.busy = true) (off : Nat) (v : Word) :
    ∃ d a e, (d = true → s.done = true) ∧
      s.writeOffset off v = { s with done := d, awb := a, doneIe := e } := by
  rcases writeOffset_cases s off v with ht | ⟨ht, -⟩ | ⟨-, hidle⟩ | ⟨d, a, ht⟩ | ⟨e, ht⟩ |
    ⟨o, -, hidle⟩
  · exact ⟨s.done, s.awb, s.doneIe, id, ht⟩
  · exact ⟨s.done, true, s.doneIe, id, ht⟩
  · exact absurd h (by simp [hidle])
  · exact ⟨s.done && d, s.awb && a, s.doneIe, Bool.and_elim_left, ht⟩
  · exact ⟨s.done, s.awb, e, id, ht⟩
  · exact absurd h (by simp [hidle])

/-- While busy a host access reaches AWB, IRQ_EN, DONE (only to clear it) and the record of the host's
reads alone. -/
theorem hostAccess_of_busy {p : Params} {s t : State} {a : Access} (h : s.busy = true)
    (ht : hostAccess p s a = .next t) :
    ∃ d b e seen, (d = true → s.done = true) ∧
      t = { s with done := d, awb := b, doneIe := e, hostSaw := seen } := by
  rcases hostAccess_next ht with ⟨off, v, -, -, -, rfl⟩ | ⟨off, -, -, -, rfl⟩ | ⟨i, b, -, -, rfl⟩ |
    ⟨i, -, -, rfl⟩
  · obtain ⟨d, b, e, hd, hw⟩ := writeOffset_of_busy h off v
    exact ⟨d, b, e, s.hostSaw, hd, hw⟩
  · exact ⟨s.done, s.awb, s.doneIe, _, id, rfl⟩
  · exact ⟨s.done, true, s.doneIe, s.hostSaw, id, writeIdle_of_busy h _⟩
  · exact ⟨s.done, s.awb, s.doneIe, _, id, rfl⟩

/-- Settles O48: none of the fields a busy access reaches belongs to the command or to what it reads or
writes. -/
theorem accessesWhileBusyDoNotReachTheCommand :
    Obligations.AccessesWhileBusyDoNotReachTheCommand := by
  intro s t a rest ha hb ht
  rw [step_of_access ha] at ht
  obtain ⟨d, b, e, seen, hd, rfl⟩ := hostAccess_of_busy (s := s.advance) hb ht
  exact ⟨rfl, rfl, rfl, rfl, rfl, rfl, rfl, rfl, rfl, hd⟩

/-! ## The reset input (R270, R271; 10_state.md R48) -/

theorem step_of_reset {s : State} {rest : List Event} (h : s.agenda = .reset :: rest) :
    step s = .next s.advance.resetLine := by rw [step, stepOn, h]

/-- Settles O52: outside the model's own fields the next state is `State.reset`, so its values are those of
O51, and its mode NONE is what the five commands fail on. -/
theorem resetInputDiscardsTheCommand : Obligations.ResetInputDiscardsTheCommand := by
  intro s rest ha
  obtain ⟨hstatus, hirqEn, hirq, hops, houtLen, hctx, hidle, -, -, -, -, hbuf⟩ := resetValues
  exact ⟨s.advance.resetLine, step_of_reset ha, hstatus, hirqEn, hirq, hops, houtLen, hctx, hidle, hbuf,
    fun _ hi => exec_noFilter (s := s.advance.resetLine) (congrArg Ctx.mode hctx) hi⟩

end Sys2Proof.Proofs
